-- ==== Sys2Proof/Word.lean ====
section
/-! DEFINITION. The plainest types of the CORE: a word, a level, a character identifier, and what a host can put on
the command interface. -/

namespace Sys2Proof

/-- A 16-bit value: Serial Word, pulse count or delay (00_scope.md R5, R8). -/
abbrev Word := BitVec 16

/-- A line level: `false` is 0 (low), `true` is 1 (high) (00_scope.md R5). -/
abbrev Level := Bool

/-- A character identifier of the display, one of A, B, C (92_eei_decisions.md D15). -/
inductive Character where
  | chA
  | chB
  | chC
  deriving DecidableEq, Repr

/-- An operation in its encoded form, at one of the two levels of encoding, which must not be mixed up
(30_encoding.md R60): a 20-bit command word (R71), or a wire command's pulse count (R65; log entry 12). -/
inductive Request where
  | command (cmd : BitVec 20)
  | wire (count : Word)
  deriving DecidableEq, Repr

end Sys2Proof
end

