-- ==== Sys2Proof/Config.lean ====
section
/-! DEFINITION. The hardwired constants of the CORE (00_scope.md R4, 10_state.md R22), and its one free value: the
contents of the character table. -/

namespace Sys2Proof.Config

/-- Number of driver ICs in the chain. -/
abbrev nIcs : Nat := 2

/-- Number of output channels of one driver IC. -/
abbrev nCh : Nat := 16

/-- Number of bits of a Serial Word. -/
abbrev wordW : Nat := 16

/-- stateSettingData1. Its bits have no meaning for the CORE (R23). -/
def ssd1 : Word := 0x0000#16

/-- stateSettingData2. Its bits have no meaning for the CORE (R23). -/
def ssd2 : Word := 0xC880#16

/-- OPC_STORE: the pulse count of WCMD.STORE. -/
def opcStore : Word := 0#16

/-- OPC_LATCH: the pulse count of WCMD.LATCH. -/
def opcLatch : Word := 2#16

/-- OPC_ONOFF: the pulse count of WCMD.ONOFF. -/
def opcOnoff : Word := 7#16

/-- OPC_STATE1: the pulse count of WCMD.STATE1. -/
def opcState1 : Word := 13#16

/-- OPC_STATE2: the pulse count of WCMD.STATE2. -/
def opcState2 : Word := 15#16

/-- PWM_INIT: the magnitude INIT loads. -/
def pwmInit : Word := 0x7FFF#16

/-- PWM_HOLD: the PWM clock cycles of one SHOW. -/
def pwmHold : Word := 0xFFFF#16

/-- SHOW_MS: the wait at the end of one SHOW. -/
def showMs : Word := 100#16

/-- Default of the parameter T_HOLD (R4, D7). -/
def tHoldDefault : Word := 1#16

/-- Default of the parameter CNT_W (R4, D6). -/
def cntWDefault : Nat := 16

/-- DESIGN CHOICE (log entry 1), a free value: PAT[A], PAT[B], PAT[C] are parameters with no default (R4, R43).
Nothing constrains this constant, so what is proved of it holds of every table. -/
opaque pat : Character → Word

end Sys2Proof.Config
end

