-- ==== Sys2Proof/Syntax.lean ====
section
/-! DEFINITION. The abstract syntax: one constructor per row of spec/opcode_table.json (30_encoding.md R76 for the
operations, R66 for the wire commands). SHOW has three rows in the table, one for each character. -/

namespace Sys2Proof

/-- An operation of the CORE (00_scope.md R3), or a wire command (43_wire_commands.md R130). -/
inductive Instr where
  /-- `SER W` (R80) -/
  | ser (w : Word)
  /-- `BCAST W` (R81) -/
  | bcast (w : Word)
  /-- `FRAME K` (R82); K has CNT_W bits, see `Instr.wf` -/
  | frame (k : Word)
  /-- `PWMCLK N` (R83); N has CNT_W bits, see `Instr.wf` -/
  | pwmclk (n : Word)
  /-- `DELAY n` (R84) -/
  | delay (n : Word)
  /-- `STATESET` (R100) -/
  | stateset
  /-- `PWMLOAD M` (R101) -/
  | pwmload (m : Word)
  /-- `ONOFF P` (R102) -/
  | onoff (p : Word)
  /-- `SHOW A` (R115) -/
  | showA
  /-- `SHOW B` (R115) -/
  | showB
  /-- `SHOW C` (R115) -/
  | showC
  /-- `INIT` (R116) -/
  | init
  /-- `RUN n` (R118); 0 is no bound -/
  | run (n : Word)
  /-- WCMD.STORE, pulse count 0 (R131) -/
  | wcmdStore
  /-- WCMD.LATCH, pulse count 2 (R132) -/
  | wcmdLatch
  /-- WCMD.ONOFF, pulse count 7 (R133) -/
  | wcmdOnoff
  /-- WCMD.STATE1, pulse count 13 (R134) -/
  | wcmdState1
  /-- WCMD.STATE2, pulse count 15 (R135) -/
  | wcmdState2
  deriving DecidableEq, Repr

end Sys2Proof
end

