-- ==== Sys2Proof/WellFormed.lean ====
section
/-! DEFINITION. Which terms of `Instr` are instructions of a CORE whose pulse counts have `cntW` bits
(00_scope.md R8, 30_encoding.md R76). -/

namespace Sys2Proof

/-- `k` is a number of `cntW` bits (30_encoding.md R72: "bits above CNT_W must be 0"). -/
abbrev countFits (cntW : Nat) (k : Word) : Prop := k.toNat < 2 ^ cntW

/-- The operands K of `FRAME` and N of `PWMCLK` have CNT_W bits (R8); every other operand fills its type. -/
def Instr.wf (cntW : Nat) : Instr → Bool
  | .frame k => decide (countFits cntW k)
  | .pwmclk n => decide (countFits cntW n)
  | .ser _ | .bcast _ | .delay _ | .stateset | .pwmload _ | .onoff _ | .showA | .showB | .showC | .init | .run _
  | .wcmdStore | .wcmdLatch | .wcmdOnoff | .wcmdState1 | .wcmdState2 => true

end Sys2Proof
end

