-- ==== Sys2Proof/Decode.lean ====
section
/-! DEFINITION. The decoder of command words and wire commands, the encoder, and the table's numbering of a word's
bits (30_encoding.md R65, R66, R71 to R74). -/

namespace Sys2Proof

/-- Why a word names no operation (R73), or a pulse count no wire command (R70). -/
inductive DecodeError where
  /-- `op` is in 0xB..0xF -/
  | reservedOp
  /-- `op` is 0x5 or 0x9 and `arg` is not 0 -/
  | argNotZero
  /-- `op` is 0x8 and `arg` is above 2 -/
  | noSuchCharacter
  /-- `op` is 0x2 or 0x3 and a bit of `arg` at or above CNT_W is set -/
  | countTooWide
  /-- a pulse count other than 0, 2, 7, 13, 15 is no wire command in use (R70) -/
  | unusedPulseCount
  deriving DecidableEq, Repr

/-- Bits 19 to 16 of a command word (R71). -/
def opField (cmd : BitVec 20) : BitVec 4 := cmd.extractLsb' 16 4

/-- Bits 15 to 0 of a command word (R71). -/
def argField (cmd : BitVec 20) : Word := cmd.extractLsb' 0 16

/-- The command opcode map (R72, R73), on the two fields of a command word. -/
def decodeFields (cntW : Nat) (op : BitVec 4) (arg : Word) : Except DecodeError Instr :=
  match op.toNat with
  | 0x0 => .ok (.ser arg)
  | 0x1 => .ok (.bcast arg)
  | 0x2 => if countFits cntW arg then .ok (.frame arg) else .error .countTooWide
  | 0x3 => if countFits cntW arg then .ok (.pwmclk arg) else .error .countTooWide
  | 0x4 => .ok (.delay arg)
  | 0x5 => if arg = 0#16 then .ok .stateset else .error .argNotZero
  | 0x6 => .ok (.pwmload arg)
  | 0x7 => .ok (.onoff arg)
  | 0x8 =>
    match arg.toNat with
    | 0 => .ok .showA
    | 1 => .ok .showB
    | 2 => .ok .showC
    | _ => .error .noSuchCharacter
  | 0x9 => if arg = 0#16 then .ok .init else .error .argNotZero
  | 0xA => .ok (.run arg)
  | _ => .error .reservedOp

/-- Decoding a command word, total on all 2^20 of them (R73). -/
def decodeCommand (cntW : Nat) (cmd : BitVec 20) : Except DecodeError Instr :=
  decodeFields cntW (opField cmd) (argField cmd)

/-- The wire opcode map: the opcode of a wire command is its pulse count (R65, R66). -/
def decodeWire (count : Word) : Except DecodeError Instr :=
  match count.toNat with
  | 0 => .ok .wcmdStore
  | 2 => .ok .wcmdLatch
  | 7 => .ok .wcmdOnoff
  | 13 => .ok .wcmdState1
  | 15 => .ok .wcmdState2
  | _ => .error .unusedPulseCount

/-- Decoding at the level the request stands at (R60). -/
def decode (cntW : Nat) : Request → Except DecodeError Instr
  | .command cmd => decodeCommand cntW cmd
  | .wire count => decodeWire count

/-- A command word from its two fields (R71). -/
def commandWord (op : BitVec 4) (arg : Word) : Request := .command (op ++ arg)

/-- The encoding of an instruction, from the two opcode maps (R66, R72). -/
def encode : Instr → Request
  | .ser w => commandWord 0x0#4 w
  | .bcast w => commandWord 0x1#4 w
  | .frame k => commandWord 0x2#4 k
  | .pwmclk n => commandWord 0x3#4 n
  | .delay n => commandWord 0x4#4 n
  | .stateset => commandWord 0x5#4 0#16
  | .pwmload m => commandWord 0x6#4 m
  | .onoff p => commandWord 0x7#4 p
  | .showA => commandWord 0x8#4 0#16
  | .showB => commandWord 0x8#4 1#16
  | .showC => commandWord 0x8#4 2#16
  | .init => commandWord 0x9#4 0#16
  | .run n => commandWord 0xA#4 n
  | .wcmdStore => .wire Config.opcStore
  | .wcmdLatch => .wire Config.opcLatch
  | .wcmdOnoff => .wire Config.opcOnoff
  | .wcmdState1 => .wire Config.opcState1
  | .wcmdState2 => .wire Config.opcState2

/-- DESIGN CHOICE (log entry 27): the request whose bits are `w`, as spec/opcode_table.json numbers them. A row of at
most 16 bits is a wire command, compared with the whole pulse count; a longer row is a command word of 20 bits. -/
def requestOfTable (nbits w : Nat) : Option Request :=
  if nbits ≤ 16 then
    if w < 2 ^ 16 then some (.wire (BitVec.ofNat 16 w)) else none
  else
    if w < 2 ^ 20 then some (.command (BitVec.ofNat 20 w)) else none

/-- The instruction the decoder reads from an instruction whose bits are `w`, at the default CNT_W. -/
def decodeTableWord (nbits w : Nat) : Option Instr :=
  match requestOfTable nbits w with
  | none => none
  | some r =>
    match decode Config.cntWDefault r with
    | .ok i => some i
    | .error _ => none

end Sys2Proof
end

