-- ==== Sys2Proof/Machine/State.lean ====
section
/-! DEFINITION. The state of the CORE as plain data: the pin registers, the control stack of activation records, the
trace, the fixed parameters and the host's side of the interface (10_state.md); the ways a step can stop; reset. -/

namespace Sys2Proof.Machine

/-- The four output lines, numbered 0 to 3 in this order (10_state.md R11). -/
inductive Line where
  | data
  | clock
  | te
  | pwmclk
  deriving DecidableEq, Repr

/-- The pin registers (10_state.md R10). -/
structure Pins where
  data : Level
  clock : Level
  te : Level
  pwmclk : Level
  deriving DecidableEq, Repr

/-- All four lines low: the levels after reset (R30) and whenever the CORE is idle (R13). -/
def Pins.low : Pins := ⟨false, false, false, false⟩

/-- An event of the trace (00_scope.md R6). -/
inductive Event where
  /-- `Set(p, v)`: level v is written to line p -/
  | set (p : Line) (v : Level)
  /-- `Wait(n)`: one call of the Timing interface -/
  | wait (n : Word)
  deriving DecidableEq, Repr

/-- The activation records of 10_state.md R16, each with the ranges of its script counter and loop counters. -/
inductive Record where
  | aSer (shr : Word) (i : Fin (Config.wordW + 1)) (ph : Fin 5)
  | aFrame (k : Word) (ph : Fin 6)
  | aPwm (n : Word) (ph : Fin 2)
  | aDelay (n : Word)
  | aBcast (w : Word) (j : Fin (Config.nIcs + 1))
  | aStateset (pc : Fin 5)
  | aPwmload (m : Word) (ch : Fin (Config.nCh + 1)) (pc : Fin 4)
  | aOnoff (p : Word) (pc : Fin 3)
  | aInit (pc : Fin 3)
  /-- `p` is unwritten until the lookup (R28) -/
  | aShow (c : Character) (p : Option Word) (pc : Fin 6)
  | aRun (n : Word) (done : Word) (c : Character) (pc : Fin 3)
  deriving DecidableEq, Repr

/-- The static nesting level of a record (R16). -/
def Record.level : Record → Nat
  | .aSer .. | .aFrame .. | .aPwm .. | .aDelay .. => 0
  | .aBcast .. => 1
  | .aStateset .. | .aPwmload .. | .aOnoff .. => 2
  | .aInit .. | .aShow .. => 3
  | .aRun .. => 4

/-- BOOT_MODE (00_scope.md R4; 70_reset_and_hazards.md R172, R173). -/
inductive BootMode where
  | autorun
  | hosted
  deriving DecidableEq, Repr

/-- The character table PAT (20_memory.md R43). -/
structure Table where
  a : Word
  b : Word
  c : Word
  deriving DecidableEq, Repr

/-- The parameters of one CORE (00_scope.md R4). They are configuration, not registers (10_state.md R26): no step
writes them. DESIGN CHOICE (log entry 2): they stand in State, so that a statement about every state is a statement
about every configuration. -/
structure Params where
  /-- T_HOLD -/
  tHold : Word
  /-- CNT_W -/
  cntW : Nat
  /-- BOOT_MODE -/
  bootMode : BootMode
  /-- PAT[A], PAT[B], PAT[C] -/
  table : Table
  deriving DecidableEq, Repr

/-- The defaults of R4, and the free patterns of `Config.pat` where R4 gives none (log entries 1, 4). -/
def Params.default : Params where
  tHold := Config.tHoldDefault
  cntW := Config.cntWDefault
  bootMode := .autorun
  table := ⟨Config.pat .chA, Config.pat .chB, Config.pat .chC⟩

/-- The host's side of the interface (60_exceptions.md R165): the MODEL's own inputs, DESIGN CHOICE (log entry 6).
The environment sets them between steps; a step reads them. -/
structure HostPort where
  /-- the reset input, sampled by the next step (R152, R170) -/
  reset : Bool
  /-- a command offered to the next step (R155) -/
  offer : Option Request
  /-- the command lines the host still has to give, each when BUSY = 0 (30_encoding.md R75, R155) -/
  program : List Request
  deriving DecidableEq, Repr

/-- Nothing asserted, nothing offered, nothing to give. -/
def HostPort.quiet : HostPort := ⟨false, none, []⟩

/-- The state of the CORE with its parameters and its host's inputs. -/
structure State where
  /-- the pin registers (R10) -/
  pins : Pins
  /-- the control stack `K`, the top record first (R15) -/
  stack : List Record
  /-- the events emitted since reset, in order (00_scope.md R6; log entry 15) -/
  trace : List Event
  /-- the fixed parameters (R26) -/
  params : Params
  /-- the host's inputs (R165) -/
  host : HostPort
  deriving DecidableEq, Repr

/-- The CORE raises no exception: "the set of synchronous exceptions is empty" (60_exceptions.md R150). -/
inductive Fault where
  /-- Raised by the step of an `aSHOW` record at `pc` 1 whose pattern was never written. "No step reads a field nothing
  has written" (10_state.md R28), so no reachable state raises it. Safe (log entry 17). -/
  | unwrittenPattern
  deriving DecidableEq, Repr

/-- Why a step has no next state. -/
inductive Refusal where
  /-- Raised by `exec` for an instruction with no meaning yet. Safe. -/
  | notModelled (mnemonic : String)
  /-- Raised by a step of a CORE whose CNT_W is outside 4..16, or that boots in AUTORUN with CNT_W below 16
  (92_eei_decisions.md D6). Safe (log entry 14). -/
  | illegalConfig
  /-- Raised by SHOW and RUN when CNT_W is below 16, so that the count 0xFFFF cannot be expressed: "the model must refuse
  the configuration" (42_display_program.md R115 corner case d). Safe (log entry 14). -/
  | countTooNarrow
  /-- Raised by the step of the idle CORE in HOSTED mode that is given a word naming no operation (30_encoding.md R73), or
  a pulse count that is no wire command (log entry 12): "the machine has no step for it" (60_exceptions.md R154). It is
  the model's outcome and no report: the CORE tells its host nothing. Safe (log entry 8). -/
  | refusedWord (why : DecodeError)
  deriving DecidableEq, Repr

/-- The control stack after reset (10_state.md R30). -/
def bootStack : BootMode → List Record
  | .autorun => [.aRun 0#16 0#16 .chA 0]
  | .hosted => []

/-- The state right after reset of a CORE with parameters `p` whose host gives `h` (10_state.md R30, R170). -/
def State.resetOf (p : Params) (h : HostPort) : State where
  pins := Pins.low
  stack := bootStack p.bootMode
  trace := []
  params := p
  host := h

/-- The machine right after reset: the default configuration, and a host that has given nothing (log entry 6). -/
def State.reset : State := State.resetOf Params.default HostPort.quiet

end Sys2Proof.Machine
end

