-- ==== Sys2Proof/Machine/Flags.lean ====
section
/-! DEFINITION. The one status flag (10_state.md R20, R21). There is no carry, zero, overflow or sign flag and no
condition code, so no instruction computes one. -/

namespace Sys2Proof.Machine

/-- `BUSY`: 1 exactly when the control stack is not empty; read off the stack, no register of its own (R20). -/
def State.busy (s : State) : Bool := !s.stack.isEmpty

end Sys2Proof.Machine
end

