-- ==== Sys2Proof/Machine/Operands.lean ====
section
/-! DEFINITION. What the steps compute on their operands and counters (40_primitives.md R85), and the one read the
CORE performs. -/

namespace Sys2Proof.Machine

/-- The bit the next cell carries: bit 0 of the shift register (20_memory.md R55). -/
def serBit (shr : Word) : Level := shr.getLsbD 0

/-- The shift register one bit further: a logical shift, zero enters at bit 15 (R85). -/
def serShift (shr : Word) : Word := shr >>> 1

/-- One further on a loop counter of the range 0..n. No counter wraps (00_scope.md R8, 10_state.md R18): at n, which no
step counts on from, it stays (log entry 18). -/
def bump {n : Nat} (x : Fin (n + 1)) : Fin (n + 1) :=
  if h : x.val < n then ⟨x.val + 1, Nat.succ_lt_succ h⟩ else x

/-- A pulse count one lower; taken only where the count is above 0 (R86). -/
def countDown (k : Word) : Word := k - 1#16

/-- The character after `c` in the cycle A, B, C, A (10_state.md R19). -/
def nextChar : Character → Character
  | .chA => .chB
  | .chB => .chC
  | .chC => .chA

/-- `MemRead(TABLE, c, 16)`: the pattern of `c` (20_memory.md R43). -/
def readTable (t : Table) : Character → Word
  | .chA => t.a
  | .chB => t.b
  | .chC => t.c

/-- CNT_W is 4 to 16 (D6), and 16 where the CORE runs the display program from reset (R115 corner case d). -/
def Params.legal (p : Params) : Bool :=
  decide (4 ≤ p.cntW) && decide (p.cntW ≤ 16) && (decide (p.bootMode = .hosted) || decide (p.cntW = 16))

/-- PWM_HOLD can be expressed in CNT_W bits (R115 corner case d). -/
def Params.canShow (p : Params) : Bool := decide (16 ≤ p.cntW)

end Sys2Proof.Machine
end

