-- ==== Sys2Proof/Machine/Ops.lean ====
section
/-! DEFINITION. The named operations every step is built from: the pin registers, the trace, one move of the top
record, taking a command, reset. The CORE has no exception, so there is no operation that takes one and none that
returns from one (60_exceptions.md R150, R153). -/

namespace Sys2Proof.Machine

open Host (Outcome)

/-- The level register of a line (10_state.md R10). -/
def Pins.get (q : Pins) : Line → Level
  | .data => q.data
  | .clock => q.clock
  | .te => q.te
  | .pwmclk => q.pwmclk

/-- `PIN[p] <- v`: one register changes and no other (R10). -/
def Pins.set (q : Pins) (p : Line) (v : Level) : Pins :=
  match p with
  | .data => { q with data := v }
  | .clock => { q with clock := v }
  | .te => { q with te := v }
  | .pwmclk => { q with pwmclk := v }

/-- The pin registers after an event: a `Wait` changes no line (00_scope.md R6). -/
def Pins.after (q : Pins) : Event → Pins
  | .set p v => q.set p v
  | .wait _ => q

/-- What one step of the top record does (10_state.md R17): the event it emits, what becomes of the record (`none`: it
pops itself), and the record it pushes. -/
structure Move where
  event : Option Event
  self : Option Record
  child : Option Record
  deriving DecidableEq, Repr

/-- Emit `e`; the record becomes `r`. -/
def Move.emit (e : Event) (r : Record) : Move := ⟨some e, some r, none⟩

/-- Emit `e` and pop. -/
def Move.emitPop (e : Event) : Move := ⟨some e, none, none⟩

/-- Silent: pop. -/
def Move.pop : Move := ⟨none, none, none⟩

/-- Silent: the record becomes `r`. -/
def Move.become (r : Record) : Move := ⟨none, some r, none⟩

/-- Silent: the record becomes `r` and pushes `child`. -/
def Move.push (child r : Record) : Move := ⟨none, some r, some child⟩

/-- Emitting an event: it goes to the end of the trace, and a `Set` writes its pin register (00_scope.md R6, R7). -/
def State.emit (s : State) (e : Event) : State :=
  { s with pins := s.pins.after e, trace := s.trace ++ [e] }

/-- Emitting the event of a step, if it has one. -/
def State.emitOption (s : State) : Option Event → State
  | none => s
  | some e => s.emit e

/-- The state after the move `m` of the record that stood on top of `rest`. -/
def State.applyMove (s : State) (m : Move) (rest : List Record) : State :=
  { s.emitOption m.event with stack := m.child.toList ++ m.self.toList ++ rest }

/-- The command interface after a step: an offer is not queued (60_exceptions.md R155). -/
def State.clearOffer (s : State) : State :=
  { s with host := { s.host with offer := none } }

/-- Reset (70_reset_and_hazards.md R170). The parameters and the host's own lines are outside the CORE and stay; a
command that coincides with reset is not accepted (R152; log entry 16). -/
def State.doReset (s : State) : State :=
  State.resetOf s.params { s.host with reset := false, offer := none }

/-- Taking a command (60_exceptions.md R155): in HOSTED mode and idle, the record of the operation is pushed, which
sets BUSY. Otherwise the command is not taken: no effect, and the running operation is not disturbed. -/
def State.accept (s : State) (r : Record) : Outcome State Fault Refusal :=
  if s.params.bootMode = .hosted ∧ s.busy = false then .next { s with stack := [r] } else .next s

/-- Taking SHOW or RUN, which a CORE with CNT_W below 16 cannot express (R115 corner case d, D6; log entry 14). -/
def State.acceptShowing (s : State) (r : Record) : Outcome State Fault Refusal :=
  if s.params.canShow then s.accept r else .refused .countTooNarrow

/-- The request the idle CORE is given: the command offered, else the host's next line (R75, R155); with the state
after it has been taken off the interface. That an offer goes before the host's lines is a DESIGN CHOICE (log entry 6). -/
def State.nextRequest (s : State) : Option (Request × State) :=
  match s.host.offer, s.host.program with
  | some q, _ => some (q, s.clearOffer)
  | none, q :: rest => some (q, { s with host := { s.host with program := rest } })
  | none, [] => none

/-- The host's move after a refused word (60_exceptions.md R154), which is no step of the CORE: the word leaves the
interface and the host goes on to its next line, as in program P5 of 95_test_vectors.md. DESIGN CHOICE (log entry 8). -/
def State.withdraw (s : State) : State :=
  match s.nextRequest with
  | none => s
  | some (_, u) => u

end Sys2Proof.Machine
end

