-- ==== Sys2Proof/Machine/Display.lean ====
section
/-! DEFINITION. The display program SHOW, INIT and RUN (42_display_program.md): taking each (R155) and the steps of
its record, every one of them silent (R121). -/

namespace Sys2Proof.Machine

open Host (Outcome)

/-- One step of `aSHOW` (R121): the lookup is the first, and its answer is read once, by the second. -/
def moveShow (t : Table) (c : Character) (p : Option Word) (pc : Fin 6) : Outcome Move Fault Refusal :=
  match pc with
  | 0 => .next (.become (.aShow c (some (readTable t c)) 1))
  | 1 =>
    match p with
    | some pat => .next (.push (.aOnoff pat 0) (.aShow c p 2))
    | none => .fault .unwrittenPattern
  | 2 => .next (.push (.aFrame Config.opcLatch 0) (.aShow c p 3))
  | 3 => .next (.push (.aPwm Config.pwmHold 0) (.aShow c p 4))
  | 4 => .next (.push (.aDelay Config.showMs) (.aShow c p 5))
  | 5 => .next .pop

/-- One step of `aINIT` (R121). -/
def moveInit (pc : Fin 3) : Move :=
  match pc with
  | 0 => .push (.aStateset 0) (.aInit 1)
  | 1 => .push (.aPwmload Config.pwmInit 0 0) (.aInit 2)
  | 2 => .pop

/-- One step of `aRUN` (R121). The bound 0 is no bound: the record is never popped (R118). -/
def moveRun (n done : Word) (c : Character) (pc : Fin 3) : Move :=
  match pc with
  | 0 => .push (.aInit 0) (.aRun n done c 1)
  | 1 => if n ≠ 0#16 ∧ done = n then .pop else .push (.aShow c none 0) (.aRun n done c 2)
  | 2 => .become (.aRun n (if n = 0#16 then done else done + 1#16) (nextChar c) 1)

/-- `SHOW A` (R115). -/
def execShowA (s : State) : Outcome State Fault Refusal := s.acceptShowing (.aShow .chA none 0)

/-- `SHOW B` (R115). -/
def execShowB (s : State) : Outcome State Fault Refusal := s.acceptShowing (.aShow .chB none 0)

/-- `SHOW C` (R115). -/
def execShowC (s : State) : Outcome State Fault Refusal := s.acceptShowing (.aShow .chC none 0)

/-- `INIT` (R116). -/
def execInit (s : State) : Outcome State Fault Refusal := s.accept (.aInit 0)

/-- `RUN n` (R118); the display starts at A (R19). -/
def execRun (n : Word) (s : State) : Outcome State Fault Refusal := s.acceptShowing (.aRun n 0#16 .chA 0)

end Sys2Proof.Machine
end

