-- ==== Sys2Proof/Machine/Primitives.lean ====
section
/-! DEFINITION. The primitive operations SER, BCAST, FRAME, PWMCLK and DELAY (40_primitives.md): taking each (R155)
and the steps of its record (R86). -/

namespace Sys2Proof.Machine

open Host (Outcome)

/-- One step of `aSER` (R86): five steps a bit cell, then the closing `Set(DATA, 0)`. -/
def moveSer (p : Params) (shr : Word) (i : Fin (Config.wordW + 1)) (ph : Fin 5) : Move :=
  if i.val < Config.wordW then
    match ph with
    | 0 => .emit (.set .data (serBit shr)) (.aSer shr i 1)
    | 1 => .emit (.set .clock true) (.aSer shr i 2)
    | 2 => .emit (.wait p.tHold) (.aSer shr i 3)
    | 3 => .emit (.set .clock false) (.aSer shr i 4)
    | 4 => .emit (.wait p.tHold) (.aSer (serShift shr) (bump i) 0)
  else .emitPop (.set .data false)

/-- One step of `aBCAST` (R86). -/
def moveBcast (w : Word) (j : Fin (Config.nIcs + 1)) : Move :=
  if j.val < Config.nIcs then .push (.aSer w 0 0) (.aBcast w (bump j)) else .pop

/-- One step of `aFRAME` (R86). A count of 0 goes from the rise of TE to its fall over one wait (R82 corner case b). -/
def moveFrame (p : Params) (k : Word) (ph : Fin 6) : Move :=
  match ph with
  | 0 => .emit (.set .te true) (.aFrame k 1)
  | 1 => .emit (.wait p.tHold) (.aFrame k (if k = 0#16 then 5 else 2))
  | 2 => .emit (.set .clock true) (.aFrame k 3)
  | 3 => .emit (.wait p.tHold) (.aFrame k 4)
  | 4 => .emit (.set .clock false) (.aFrame (countDown k) 1)
  | 5 => .emitPop (.set .te false)

/-- One step of `aPWM` (R86). -/
def movePwm (n : Word) (ph : Fin 2) : Move :=
  match ph with
  | 0 => if n = 0#16 then .pop else .emit (.set .pwmclk true) (.aPwm n 1)
  | 1 => .emit (.set .pwmclk false) (.aPwm (countDown n) 0)

/-- The step of `aDELAY` (R86). -/
def moveDelay (n : Word) : Move := .emitPop (.wait n)

/-- `SER W` (R80). -/
def execSer (w : Word) (s : State) : Outcome State Fault Refusal := s.accept (.aSer w 0 0)

/-- `BCAST W` (R81). -/
def execBcast (w : Word) (s : State) : Outcome State Fault Refusal := s.accept (.aBcast w 0)

/-- `FRAME K` (R82). -/
def execFrame (k : Word) (s : State) : Outcome State Fault Refusal := s.accept (.aFrame k 0)

/-- `PWMCLK N` (R83). -/
def execPwmclk (n : Word) (s : State) : Outcome State Fault Refusal := s.accept (.aPwm n 0)

/-- `DELAY n` (R84). -/
def execDelay (n : Word) (s : State) : Outcome State Fault Refusal := s.accept (.aDelay n)

end Sys2Proof.Machine
end

