-- ==== Sys2Proof/Machine/Sequences.lean ====
section
/-! DEFINITION. The sequences STATESET, PWMLOAD and ONOFF (41_sequences.md): taking each (R155) and the steps of its
record, every one of them silent (R104). -/

namespace Sys2Proof.Machine

open Host (Outcome)

/-- One step of `aSTATESET` (R104). -/
def moveStateset (pc : Fin 5) : Move :=
  match pc with
  | 0 => .push (.aBcast Config.ssd1 0) (.aStateset 1)
  | 1 => .push (.aFrame Config.opcState1 0) (.aStateset 2)
  | 2 => .push (.aBcast Config.ssd2 0) (.aStateset 3)
  | 3 => .push (.aFrame Config.opcState2 0) (.aStateset 4)
  | 4 => .pop

/-- One step of `aPWMLOAD` (R104). -/
def movePwmload (m : Word) (ch : Fin (Config.nCh + 1)) (pc : Fin 4) : Move :=
  match pc with
  | 0 => if ch.val < Config.nCh then .push (.aBcast m 0) (.aPwmload m ch 1) else .become (.aPwmload m ch 2)
  | 1 => .push (.aFrame Config.opcStore 0) (.aPwmload m (bump ch) 0)
  | 2 => .push (.aFrame Config.opcLatch 0) (.aPwmload m ch 3)
  | 3 => .pop

/-- One step of `aONOFF` (R104). -/
def moveOnoff (p : Word) (pc : Fin 3) : Move :=
  match pc with
  | 0 => .push (.aBcast p 0) (.aOnoff p 1)
  | 1 => .push (.aFrame Config.opcOnoff 0) (.aOnoff p 2)
  | 2 => .pop

/-- `STATESET` (R100). It is accepted any number of times (R158). -/
def execStateset (s : State) : Outcome State Fault Refusal := s.accept (.aStateset 0)

/-- `PWMLOAD M` (R101). -/
def execPwmload (m : Word) (s : State) : Outcome State Fault Refusal := s.accept (.aPwmload m 0 0)

/-- `ONOFF P` (R102). -/
def execOnoff (p : Word) (s : State) : Outcome State Fault Refusal := s.accept (.aOnoff p 0)

end Sys2Proof.Machine
end

