-- ==== Sys2Proof/Machine/WireCommands.lean ====
section
/-! DEFINITION. The five wire commands (43_wire_commands.md R130 to R135). A wire command is one TE window, and its
opcode is the window's pulse count, so the CORE performs it by sending that command frame; what it then does in the
driver ICs is outside the CORE (R130, R166; log entries 11, 21). -/

namespace Sys2Proof.Machine

open Host (Outcome)

/-- WCMD.STORE: the trace `T1 w T0` (R131). -/
def execWcmdStore (s : State) : Outcome State Fault Refusal := s.accept (.aFrame Config.opcStore 0)

/-- WCMD.LATCH: two pulses (R132). -/
def execWcmdLatch (s : State) : Outcome State Fault Refusal := s.accept (.aFrame Config.opcLatch 0)

/-- WCMD.ONOFF: seven pulses (R133). -/
def execWcmdOnoff (s : State) : Outcome State Fault Refusal := s.accept (.aFrame Config.opcOnoff 0)

/-- WCMD.STATE1: thirteen pulses (R134). -/
def execWcmdState1 (s : State) : Outcome State Fault Refusal := s.accept (.aFrame Config.opcState1 0)

/-- WCMD.STATE2: fifteen pulses (R135). -/
def execWcmdState2 (s : State) : Outcome State Fault Refusal := s.accept (.aFrame Config.opcState2 0)

end Sys2Proof.Machine
end

