-- ==== Sys2Proof/Machine/Dispatch.lean ====
section
/-! DEFINITION. One arm per constructor of `Instr`. -/

namespace Sys2Proof.Machine

def exec (i : Instr) (s : State) : Host.Outcome State Fault Refusal :=
  match i with
  | .ser w => Sys2Proof.Machine.execSer w s
  | .bcast w => Sys2Proof.Machine.execBcast w s
  | .frame k => Sys2Proof.Machine.execFrame k s
  | .pwmclk n => Sys2Proof.Machine.execPwmclk n s
  | .delay n => Sys2Proof.Machine.execDelay n s
  | .stateset => Sys2Proof.Machine.execStateset s
  | .pwmload m => Sys2Proof.Machine.execPwmload m s
  | .onoff p => Sys2Proof.Machine.execOnoff p s
  | .showA => Sys2Proof.Machine.execShowA s
  | .showB => Sys2Proof.Machine.execShowB s
  | .showC => Sys2Proof.Machine.execShowC s
  | .init => Sys2Proof.Machine.execInit s
  | .run n => Sys2Proof.Machine.execRun n s
  | .wcmdStore => Sys2Proof.Machine.execWcmdStore s
  | .wcmdLatch => Sys2Proof.Machine.execWcmdLatch s
  | .wcmdOnoff => Sys2Proof.Machine.execWcmdOnoff s
  | .wcmdState1 => Sys2Proof.Machine.execWcmdState1 s
  | .wcmdState2 => Sys2Proof.Machine.execWcmdState2 s

end Sys2Proof.Machine
end

