-- ==== Sys2Proof/Machine/Cycle.lean ====
section
/-! DEFINITION. One step of the CORE (10_state.md R17) with its host's inputs: reset, a step of the top record, or
taking a command when idle. -/

namespace Sys2Proof.Machine

open Host (Outcome)

/-- One step of a record, by kind (40_primitives.md R86, 41_sequences.md R104, 42_display_program.md R121). The records
of the display program step only where PWM_HOLD can be expressed (R115 corner case d; log entry 14). -/
def moveRecord (p : Params) : Record → Outcome Move Fault Refusal
  | .aSer shr i ph => .next (moveSer p shr i ph)
  | .aFrame k ph => .next (moveFrame p k ph)
  | .aPwm n ph => .next (movePwm n ph)
  | .aDelay n => .next (moveDelay n)
  | .aBcast w j => .next (moveBcast w j)
  | .aStateset pc => .next (moveStateset pc)
  | .aPwmload m ch pc => .next (movePwmload m ch pc)
  | .aOnoff q pc => .next (moveOnoff q pc)
  | .aInit pc => .next (moveInit pc)
  | .aShow c q pc => if p.canShow then moveShow p.table c q pc else .refused .countTooNarrow
  | .aRun n done c pc => if p.canShow then .next (moveRun n done c pc) else .refused .countTooNarrow

/-- A step of the top record `r`. A command offered meanwhile is not taken and not queued (60_exceptions.md R155). -/
def busyCycle (s : State) (r : Record) (rest : List Record) : Outcome State Fault Refusal :=
  match moveRecord s.params r with
  | .next m => .next (s.clearOffer.applyMove m rest)
  | .fault f => .fault f
  | .refused q => .refused q

/-- The idle CORE (log entries 9, 10): in HOSTED mode it takes what the host gives it (R155); for a refused word there is
no step (R154); with nothing given it waits. In AUTORUN mode no command is ever taken (R155). -/
def idleCycle (s : State) : Outcome State Fault Refusal :=
  match s.params.bootMode with
  | .autorun => .next s.clearOffer
  | .hosted =>
    match s.nextRequest with
    | none => .next s
    | some (q, s') =>
      match decode s.params.cntW q with
      | .ok i => exec i s'
      | .error why => .refused (.refusedWord why)

/-- One step. Reset wins over a step and over a command (60_exceptions.md R152). -/
def cycle (s : State) : Outcome State Fault Refusal :=
  if s.host.reset then .next s.doReset
  else if s.params.legal then
    match s.stack with
    | [] => idleCycle s
    | r :: rest => busyCycle s r rest
  else .refused .illegalConfig

/-- `s` made idle in HOSTED mode, with the request `q` on the command interface (log entry 5). -/
def State.present (s : State) (q : Option Request) : State :=
  { s with
    stack := []
    params := { s.params with bootMode := .hosted }
    host := { s.host with reset := false, offer := q } }

end Sys2Proof.Machine
end

