-- ==== Sys2Proof/Machine/Step.lean ====
section
/-! DEFINITION. The step of the machine, and placing an instruction where the next step takes it from. -/

namespace Sys2Proof.Machine

/-- One step of the CORE (10_state.md R17). -/
def step (s : State) : Host.Outcome State Fault Refusal := cycle s

/-- DESIGN CHOICE (log entry 5): the CORE fetches nothing; an operation is given to it on the command interface, in
HOSTED mode, when it is idle (60_exceptions.md R155). So that the very next step runs the instruction, the CORE is put
into HOSTED mode and idle, and the instruction on the interface. -/
def State.withFetchWord (s : State) (nbits w : Nat) : State := s.present (requestOfTable nbits w)

end Sys2Proof.Machine
end

