-- ==== Sys2Proof/Machine/Written.lean ====
section
/-! DEFINITION. The written form of operations (30_encoding.md R75), on lists of characters: printing an operation, and
reading one line of a program. The wire commands have no written form: they are no operations (R60). -/

namespace Sys2Proof.Machine

/-- The digits, in order of value. -/
def digitChars : List Char := ['0', '1', '2', '3', '4', '5', '6', '7', '8', '9', 'A', 'B', 'C', 'D', 'E', 'F']

/-- The digit of value `n`. -/
def digitChar (n : Nat) : Char := digitChars.getD n '?'

/-- The value of a digit in base `base`, if the character is one. -/
def digitValue (base : Nat) (ch : Char) : Option Nat :=
  let v := digitChars.idxOf ch
  if v < base then some v else none

/-- The value of a run of digits read after the value `acc`. -/
def readDigits (base : Nat) (acc : Nat) : List Char → Option Nat
  | [] => some acc
  | ch :: rest =>
    match digitValue base ch with
    | some v => readDigits base (acc * base + v) rest
    | none => none

/-- A number of at least one digit. -/
def readNumber (base : Nat) : List Char → Option Nat
  | [] => none
  | cs => readDigits base 0 cs

/-- Four hexadecimal digits. -/
def hexDigits (w : Word) : List Char :=
  [digitChar (w.toNat / 4096 % 16), digitChar (w.toNat / 256 % 16), digitChar (w.toNat / 16 % 16), digitChar (w.toNat % 16)]

/-- A number in decimal, of at most `fuel` digits and with no leading zero. -/
def decimalDigits : Nat → Nat → List Char
  | 0, _ => []
  | fuel + 1, n => (if n < 10 then [] else decimalDigits fuel (n / 10)) ++ [digitChar (n % 10)]

/-- A word of the machine from a number, if it is one. -/
def asWord (n : Nat) : Option Word := if n < 2 ^ 16 then some (BitVec.ofNat 16 n) else none

/-- A 16-bit operand: hexadecimal with `0x`, or decimal (R75). The bound of RUN is one (R76). -/
def readWord : List Char → Option Word
  | '0' :: 'x' :: cs => (readNumber 16 cs).bind asWord
  | cs => (readNumber 10 cs).bind asWord

/-- A pulse count or a delay: decimal (R75). -/
def readCount (cs : List Char) : Option Word := (readNumber 10 cs).bind asWord

/-- The written form of a 16-bit operand. -/
def writeWord (w : Word) : List Char := ['0', 'x'] ++ hexDigits w

/-- The written form of a pulse count or a delay, and the decimal form of a bound. -/
def writeCount (n : Word) : List Char := decimalDigits 5 n.toNat

/-- The written form of an operation (R75). -/
def written : Instr → Option (List Char)
  | .ser w => some (['S', 'E', 'R', ' '] ++ writeWord w)
  | .bcast w => some (['B', 'C', 'A', 'S', 'T', ' '] ++ writeWord w)
  | .frame k => some (['F', 'R', 'A', 'M', 'E', ' '] ++ writeCount k)
  | .pwmclk n => some (['P', 'W', 'M', 'C', 'L', 'K', ' '] ++ writeCount n)
  | .delay n => some (['D', 'E', 'L', 'A', 'Y', ' '] ++ writeCount n)
  | .stateset => some ['S', 'T', 'A', 'T', 'E', 'S', 'E', 'T']
  | .pwmload m => some (['P', 'W', 'M', 'L', 'O', 'A', 'D', ' '] ++ writeWord m)
  | .onoff p => some (['O', 'N', 'O', 'F', 'F', ' '] ++ writeWord p)
  | .showA => some ['S', 'H', 'O', 'W', ' ', 'A']
  | .showB => some ['S', 'H', 'O', 'W', ' ', 'B']
  | .showC => some ['S', 'H', 'O', 'W', ' ', 'C']
  | .init => some ['I', 'N', 'I', 'T']
  | .run n => some (['R', 'U', 'N', ' '] ++ writeCount n)
  | .wcmdStore | .wcmdLatch | .wcmdOnoff | .wcmdState1 | .wcmdState2 => none

/-- An operation from its mnemonic and the text of its operand. -/
def readOperation (mnemonic operand : List Char) : Option Instr :=
  if mnemonic = ['S', 'E', 'R'] then (readWord operand).map .ser
  else if mnemonic = ['B', 'C', 'A', 'S', 'T'] then (readWord operand).map .bcast
  else if mnemonic = ['F', 'R', 'A', 'M', 'E'] then (readCount operand).map .frame
  else if mnemonic = ['P', 'W', 'M', 'C', 'L', 'K'] then (readCount operand).map .pwmclk
  else if mnemonic = ['D', 'E', 'L', 'A', 'Y'] then (readCount operand).map .delay
  else if mnemonic = ['S', 'T', 'A', 'T', 'E', 'S', 'E', 'T'] then if operand = [] then some .stateset else none
  else if mnemonic = ['P', 'W', 'M', 'L', 'O', 'A', 'D'] then (readWord operand).map .pwmload
  else if mnemonic = ['O', 'N', 'O', 'F', 'F'] then (readWord operand).map .onoff
  else if mnemonic = ['S', 'H', 'O', 'W'] then
    if operand = ['A'] then some .showA
    else if operand = ['B'] then some .showB
    else if operand = ['C'] then some .showC
    else none
  else if mnemonic = ['I', 'N', 'I', 'T'] then if operand = [] then some .init else none
  else if mnemonic = ['R', 'U', 'N'] then (readWord operand).map .run
  else none

/-- What a line of a program says. -/
inductive SourceLine where
  /-- no operation: an empty line, or nothing but spaces and a comment. R75 does not say whether such a line may stand in a
  program: DESIGN CHOICE (log entry 22) -/
  | blank
  | operation (i : Instr)
  /-- no written form of an operation -/
  | malformed
  deriving DecidableEq, Repr

/-- A text without the spaces before it and after it. -/
def trimSpaces (cs : List Char) : List Char :=
  ((cs.dropWhile (· = ' ')).reverse.dropWhile (· = ' ')).reverse

/-- One line of a program for a CORE with CNT_W = `cntW`: one operation, and a `;` starts a comment (R75). That a line
with no operation is `blank` and not `malformed` is a DESIGN CHOICE (log entry 22). -/
def readLine (cntW : Nat) (line : List Char) : SourceLine :=
  let text := trimSpaces (line.takeWhile (· ≠ ';'))
  if text = [] then .blank
  else
    let mnemonic := text.takeWhile (· ≠ ' ')
    match readOperation mnemonic (trimSpaces (text.drop mnemonic.length)) with
    | some i => if i.wf cntW then .operation i else .malformed
    | none => .malformed

/-- The host's command lines from a program text (R75). That a line with no operation may stand in it and is skipped, and
that a text with a malformed line is no program (`none`), are DESIGN CHOICES (log entry 22). -/
def readProgram (cntW : Nat) : List (List Char) → Option (List Request)
  | [] => some []
  | line :: rest =>
    match readLine cntW line with
    | .blank => readProgram cntW rest
    | .operation i => (readProgram cntW rest).map (encode i :: ·)
    | .malformed => none

end Sys2Proof.Machine
end

