-- ==== Sys2Proof/Machine/Trace.lean ====
section
/-! DEFINITION. The trace of each operation as its own rule gives it (40_primitives.md R80 to R84, 41_sequences.md R100
to R102, 42_display_program.md R115, R116, R118), written with no record and no step: what the stepping machine is held
against. -/

namespace Sys2Proof.Machine

/-- `t * n`: the trace `t`, `n` times (00_scope.md R6). -/
def times (t : List Event) : Nat → List Event
  | 0 => []
  | n + 1 => t ++ times t n

/-- The bit cell of `b` (30_encoding.md R61), with T_HOLD = `h`. -/
def cell (h : Word) (b : Level) : List Event :=
  [.set .data b, .set .clock true, .wait h, .set .clock false, .wait h]

/-- The sixteen cells of `w`, bit 0 first, and the closing `Set(DATA, 0)` (R62, R80). -/
def traceSer (h w : Word) : List Event :=
  (List.range Config.wordW).flatMap (fun i => cell h (w.getLsbD i)) ++ [.set .data false]

/-- `trace(SER W) * N_ICS` (R81). -/
def traceBcast (h w : Word) : List Event := times (traceSer h w) Config.nIcs

/-- The pulse of a frame: the wait comes before the rising edge (R88). -/
def pulse (h : Word) : List Event := [.wait h, .set .clock true, .wait h, .set .clock false]

/-- The frame of `k` pulses (R64, R82). -/
def traceFrame (h k : Word) : List Event :=
  [.set .te true] ++ times (pulse h) k.toNat ++ [.wait h, .set .te false]

/-- `n` full cycles of PWMCLK (R83). -/
def tracePwmclk (n : Word) : List Event := times [.set .pwmclk true, .set .pwmclk false] n.toNat

/-- The one call of the Timing interface (R84). -/
def traceDelay (n : Word) : List Event := [.wait n]

/-- The two (broadcast, frame) pairs (R100). -/
def traceStateset (h : Word) : List Event :=
  traceBcast h Config.ssd1 ++ traceFrame h Config.opcState1 ++ traceBcast h Config.ssd2 ++ traceFrame h Config.opcState2

/-- Sixteen (broadcast, frame of 0) pairs and a frame of 2 (R101). -/
def tracePwmload (h m : Word) : List Event :=
  times (traceBcast h m ++ traceFrame h Config.opcStore) Config.nCh ++ traceFrame h Config.opcLatch

/-- The broadcast of the mask and a frame of 7 (R102). -/
def traceOnoff (h p : Word) : List Event := traceBcast h p ++ traceFrame h Config.opcOnoff

/-- One state of the Display Loop (R115). -/
def traceShow (h : Word) (t : Table) (c : Character) : List Event :=
  traceOnoff h (readTable t c) ++ traceFrame h Config.opcLatch ++ tracePwmclk Config.pwmHold ++ traceDelay Config.showMs

/-- The power-on sequence (R116). -/
def traceInit (h : Word) : List Event := traceStateset h ++ tracePwmload h Config.pwmInit

/-- `m` SHOWs, the first of character `c`, each of the next character of the cycle (R118). -/
def traceShows (h : Word) (t : Table) (c : Character) : Nat → List Event
  | 0 => []
  | m + 1 => traceShow h t c ++ traceShows h t (nextChar c) m

/-- The trace of an operation, or of a wire command (R130 to R135). `none`: `RUN 0` has no end, so it has no trace that
is a list (R118 corner case a, R120). -/
def traceOf (p : Params) : Instr → Option (List Event)
  | .ser w => some (traceSer p.tHold w)
  | .bcast w => some (traceBcast p.tHold w)
  | .frame k => some (traceFrame p.tHold k)
  | .pwmclk n => some (tracePwmclk n)
  | .delay n => some (traceDelay n)
  | .stateset => some (traceStateset p.tHold)
  | .pwmload m => some (tracePwmload p.tHold m)
  | .onoff q => some (traceOnoff p.tHold q)
  | .showA => some (traceShow p.tHold p.table .chA)
  | .showB => some (traceShow p.tHold p.table .chB)
  | .showC => some (traceShow p.tHold p.table .chC)
  | .init => some (traceInit p.tHold)
  | .run n =>
    if n = 0#16 then none else some (traceInit p.tHold ++ traceShows p.tHold p.table .chA n.toNat)
  | .wcmdStore => some (traceFrame p.tHold Config.opcStore)
  | .wcmdLatch => some (traceFrame p.tHold Config.opcLatch)
  | .wcmdOnoff => some (traceFrame p.tHold Config.opcOnoff)
  | .wcmdState1 => some (traceFrame p.tHold Config.opcState1)
  | .wcmdState2 => some (traceFrame p.tHold Config.opcState2)

/-- The fixed expansion of an operation into other operations (30_encoding.md R77); `none` for the four operations the
others expand into, for `RUN 0`, whose expansion is endless, and for the wire commands, which are no operations. -/
def expansion (p : Params) : Instr → Option (List Instr)
  | .bcast w => some [.ser w, .ser w]
  | .stateset => some [.bcast Config.ssd1, .frame Config.opcState1, .bcast Config.ssd2, .frame Config.opcState2]
  | .pwmload m => some ((List.replicate Config.nCh [Instr.bcast m, .frame Config.opcStore]).flatten ++ [.frame Config.opcLatch])
  | .onoff q => some [.bcast q, .frame Config.opcOnoff]
  | .showA => some (showExpansion p .chA)
  | .showB => some (showExpansion p .chB)
  | .showC => some (showExpansion p .chC)
  | .init => some [.stateset, .pwmload Config.pwmInit]
  | .run n => if n = 0#16 then none else some (.init :: shows .chA n.toNat)
  | .ser _ | .frame _ | .pwmclk _ | .delay _ | .wcmdStore | .wcmdLatch | .wcmdOnoff | .wcmdState1 | .wcmdState2 => none
where
  /-- `ONOFF PAT[c]`; `FRAME 2`; `PWMCLK 65535`; `DELAY 100`. -/
  showExpansion (p : Params) (c : Character) : List Instr :=
    [.onoff (readTable p.table c), .frame Config.opcLatch, .pwmclk Config.pwmHold, .delay Config.showMs]
  /-- `SHOW c`. -/
  showOf : Character → Instr
    | .chA => .showA
    | .chB => .showB
    | .chC => .showC
  /-- `m` SHOWs from character `c` on. -/
  shows (c : Character) : Nat → List Instr
    | 0 => []
    | m + 1 => showOf c :: shows (nextChar c) m

/-- Concatenation of the traces of a list of operations; `none` when one of them has no end. -/
def tracesOf (p : Params) : List Instr → Option (List Event)
  | [] => some []
  | i :: rest =>
    match traceOf p i, tracesOf p rest with
    | some t, some u => some (t ++ u)
    | _, _ => none

end Sys2Proof.Machine
end

