-- ==== Sys2Proof/Machine/Wire.lean ====
section
/-! DEFINITION. What a trace delivers on the wire: `Decode` of 43_wire_commands.md R139, the counts of 40_primitives.md
R89, and the content of the chain where the spec says it (R137). Nothing here is state of the CORE (R25, R163). -/

namespace Sys2Proof.Machine

/-- An item the sink was sent (R139): data bits in time order, or a wire command with its pulse count. -/
inductive WireItem where
  | bits (bs : List Level)
  | cmd (k : Nat)
  deriving DecidableEq, Repr

/-- The working variables of `Decode` (R139). -/
structure WireView where
  items : List WireItem
  bits : List Level
  k : Nat
  pwm : Nat
  pins : Pins
  deriving DecidableEq, Repr

/-- `Decode` before the first event, from the pin levels `q`. -/
def WireView.start (q : Pins) : WireView := ⟨[], [], 0, 0, q⟩

/-- The data bits seen since the last TE window become an item, if there are any. -/
def WireView.flush (v : WireView) : WireView :=
  if v.bits = [] then v else { v with items := v.items ++ [.bits v.bits], bits := [] }

/-- One event of `Decode` (R139). A `Wait`, and a `Set` that does not change its line, change nothing but the pins. -/
def WireView.see (v : WireView) : Event → WireView
  | .wait _ => v
  | .set p l =>
    let old := v.pins.get p
    let v := { v with pins := v.pins.set p l }
    match p, old, l with
    | .clock, false, true => if v.pins.te then { v with k := v.k + 1 } else { v with bits := v.bits ++ [v.pins.data] }
    | .te, false, true => { v.flush with k := 0 }
    | .te, true, false => { v with items := v.items ++ [.cmd v.k] }
    | .pwmclk, false, true => { v with pwm := v.pwm + 1 }
    | _, _, _ => v

/-- `Decode` from any working variables on. -/
def WireView.seeAll (v : WireView) (t : List Event) : WireView := t.foldl WireView.see v

/-- What `Decode` returns: the items, the rising edges of PWMCLK, and the pins at the end (R139). -/
structure WireResult where
  items : List WireItem
  pwm : Nat
  pins : Pins
  deriving DecidableEq, Repr

/-- `Decode(trace, pins)` (R139). -/
def wireDecode (t : List Event) (q : Pins) : WireResult :=
  let v := ((WireView.start q).seeAll t).flush
  ⟨v.items, v.pwm, v.pins⟩

/-- The bits of `w` in time order (R62). -/
def wordBits (w : Word) : List Level := (List.range Config.wordW).map w.getLsbD

/-- The bits of a broadcast of `w`: the word once for each IC (30_encoding.md R63). -/
def bcastBits (w : Word) : List Level := (List.replicate Config.nIcs (wordBits w)).flatten

/-- `Bits(W, W)`: the item of a broadcast of `w` (R139). -/
def bcastItem (w : Word) : WireItem := .bits (wordBits w ++ wordBits w)

/-- The pin levels after a trace (00_scope.md R6). -/
def pinsAfter (q : Pins) (t : List Event) : Pins := t.foldl Pins.after q

/-- The calls of the Timing interface in a trace (R89). -/
def waits (t : List Event) : Nat :=
  t.countP fun e => match e with
    | .wait _ => true
    | .set _ _ => false

/-- The writes of level `v` to line `p` in a trace. In the traces of the operations every write of 1 to CLOCK, TE or
PWMCLK is a rising edge (R89). -/
def writes (p : Line) (v : Level) (t : List Event) : Nat := t.countP fun e => decide (e = .set p v)

/-- Whether the driver ICs are known to be in step with the CORE and configured (10_state.md R25). Only a full
State-Setting Sequence brings them there (70_reset_and_hazards.md R187, 20_memory.md R48); `half` has had its first
(broadcast, frame) pair. -/
inductive Sync where
  | lost
  | half
  | inStep
  deriving DecidableEq, Repr

/-- What is known of the chain: the bits known to have been shifted in last, in time order, with no unknown one after the
first of them; the data bits since the last frame; whether the chain is in step. -/
structure Chain where
  known : List Level
  bits : List Level
  sync : Sync
  deriving DecidableEq, Repr

/-- The chain at reset. The sink is not reset with the CORE (R30), and an operation may have been aborted (R171), so
nothing is known, and the chain counts as out of step: DEDUCED (log entry 28). -/
def Chain.atReset : Chain := ⟨[], [], .lost⟩

/-- The shift registers still hold their word after a frame of this many pulses. The spec says so of the frames before
WCMD.LATCH, which have 0 pulses (41_sequences.md R101 corner case d) or 7 (43_wire_commands.md R132). Whether clock pulses
with TE high also shift data is otherwise open (R138, 91_not_in_source.md N9): DEDUCED (log entry 28). -/
def keepsChain (pulses : Nat) : Bool := decide (pulses = Config.opcStore.toNat ∨ pulses = Config.opcOnoff.toNat)

/-- A frame of this many pulses, after whole words, leaves a chain that is in step in step. Any other count may not: an
unused one (30_encoding.md R70, R187), or 13 or 15 outside a full State-Setting Sequence (log entry 28). -/
def keepsStep (pulses : Nat) : Bool := decide (pulses = Config.opcLatch.toNat) || keepsChain pulses

/-- What a frame of `k` pulses makes of `sync`, with `bits` the data bits since the frame before. The State-Setting
Sequence is SSD1 in every IC and 13 pulses, then SSD2 in every IC, no bit more or less, and 15 pulses (41_sequences.md
R100). A broken word misaligns the chain (20_memory.md R48). That nothing but this sequence puts the chain in step, a later
broadcast alone not, is the model's reading of R187 beside R42: DEDUCED (log entry 28). -/
def Sync.frame (sync : Sync) (bits : List Level) (k : Nat) : Sync :=
  if k = Config.opcState1.toNat ∧ (bcastBits Config.ssd1).isSuffixOf bits = true then .half
  else if k = Config.opcState2.toNat ∧ sync = .half ∧ bits = bcastBits Config.ssd2 then .inStep
  else if sync = .inStep ∧ keepsStep k = true ∧ bits.length % Config.wordW = 0 then .inStep
  else .lost

/-- One item of `Decode` (R139). Data bits are shifted in (30_encoding.md R61). After a frame whose pulses may have shifted
something, by the spec's words or its silence, no bit is known any more. -/
def Chain.see (c : Chain) : WireItem → Chain
  | .bits bs => ⟨c.known ++ bs, c.bits ++ bs, c.sync⟩
  | .cmd k => ⟨if keepsChain k then c.known else [], [], c.sync.frame c.bits k⟩

/-- A list of items. -/
def Chain.seeAll (c : Chain) (items : List WireItem) : Chain := items.foldl Chain.see c

/-- The content of the `N_ICS * 16` shift-register stages, the bits sent last in time order (R137), where the spec says
what it is. `none`: it does not say. That is so of a chain that is not known to be in step and configured: before any
State-Setting Sequence (70_reset_and_hazards.md R174: such a run has no effect on the sink that a model may give), and
after a reset in mid-operation or a wrong pulse count until the next one (R171, R187); and while fewer than 32 bits are
known (a host that sends one `SER` has filled half the chain, R180). Which stage holds which bit the source does not say
(N9). DEDUCED (log entry 28). -/
def Chain.content (c : Chain) : Option (List Level) :=
  let stages := Config.nIcs * Config.wordW
  if c.sync = .inStep ∧ stages ≤ c.known.length then some (c.known.drop (c.known.length - stages)) else none

/-- The chain after a trace from the pin levels `q`. -/
def chainAfter (c : Chain) (q : Pins) (t : List Event) : Chain := c.seeAll (wireDecode t q).items

/-- The content of the chain's stages after a trace. Inside a TE window that has had a pulse it is not known (R138). -/
def chainFrom (c : Chain) (q : Pins) (t : List Event) : Option (List Level) :=
  let v := (WireView.start q).seeAll t
  if v.pins.te = true ∧ v.k ≠ 0 then none else (chainAfter c q t).content

/-- The content of the chain's stages after a trace from reset (log entry 28). -/
def chain (q : Pins) (t : List Event) : Option (List Level) := chainFrom Chain.atReset q t

end Sys2Proof.Machine
end

