-- ==== Sys2Proof/Safety.lean ====
section
/-! DEFINITION. What the statements speak of: an idle CORE, a good state (the invariant of the machine), and running an
operation to its end. -/

namespace Sys2Proof.Machine

/-- Ready for the host: HOSTED mode, idle, the lines at their idle levels, no reset asserted, a configuration the spec
admits (60_exceptions.md R155, 10_state.md R13). -/
structure State.Ready (s : State) : Prop where
  hosted : s.params.bootMode = .hosted
  idle : s.stack = []
  low : s.pins = Pins.low
  noReset : s.host.reset = false
  legal : s.params.legal = true

/-- `r.continues r'`: `r'` is the record `r` further on in its script: of the same kind, with the operands that no step of
its kind writes (R86, R104, R121). -/
def Record.continues : Record → Record → Bool
  | .aSer _ _ _, .aSer _ _ _ => true
  | .aFrame _ _, .aFrame _ _ => true
  | .aPwm _ _, .aPwm _ _ => true
  | .aBcast w _, .aBcast w' _ => decide (w' = w)
  | .aStateset _, .aStateset _ => true
  | .aPwmload m _ _, .aPwmload m' _ _ => decide (m' = m)
  | .aOnoff p _, .aOnoff p' _ => decide (p' = p)
  | .aInit _, .aInit _ => true
  | .aShow c _ _, .aShow c' _ _ => decide (c' = c)
  | .aRun n _ _ _, .aRun n' _ _ _ => decide (n' = n)
  | _, _ => false

/-- What holds of the fields of a record in a CORE with parameters `p`: the counts fit in CNT_W bits and are above 0
where a later step counts them down (40_primitives.md R86), a loop counter is at its end exactly where the script has
left the loop (41_sequences.md R104), a pattern is written exactly from `pc` 1 on (10_state.md R28), and a bounded RUN has
not passed its bound and stands at the character its count gives (42_display_program.md R118). -/
def Record.ok (p : Params) : Record → Bool
  | .aSer _ i ph => decide (i.val < Config.wordW ∨ ph = 0)
  | .aFrame k ph => decide (countFits p.cntW k ∧ (ph = 2 ∨ ph = 3 ∨ ph = 4 → k ≠ 0#16) ∧ (ph = 5 → k = 0#16))
  | .aPwm n ph => decide (countFits p.cntW n ∧ (ph = 1 → n ≠ 0#16))
  | .aDelay _ => true
  | .aBcast _ _ => true
  | .aStateset _ => true
  | .aPwmload _ ch pc => decide ((pc = 1 → ch.val < Config.nCh) ∧ (pc = 2 ∨ pc = 3 → ch.val = Config.nCh))
  | .aOnoff _ _ => true
  | .aInit _ => true
  | .aShow c q pc => p.canShow && decide (q = if pc = 0 then none else some (readTable p.table c))
  | .aRun n done c pc =>
    p.canShow && decide (pc = 0 → done = 0#16 ∧ c = .chA) &&
      decide (if n = 0#16 then done = 0#16
        else done.toNat ≤ n.toNat ∧ (pc = 2 → done.toNat < n.toNat) ∧ c = Nat.repeat nextChar done.toNat .chA)

/-- `parent.calls child`: the script of `parent` stands just after its push of a record of `child`'s kind, with the
operand the script gives it (R104, R121, R86). -/
def Record.calls : Record → Record → Bool
  | .aBcast _ j, .aSer _ _ _ => decide (0 < j.val)
  | .aStateset pc, .aBcast w _ => decide (pc = 1 ∧ w = Config.ssd1 ∨ pc = 3 ∧ w = Config.ssd2)
  | .aStateset pc, .aFrame _ _ => decide (pc = 2 ∨ pc = 4)
  | .aPwmload m _ pc, .aBcast w _ => decide (pc = 1 ∧ w = m)
  | .aPwmload _ ch pc, .aFrame _ _ => decide (pc = 0 ∧ 0 < ch.val ∨ pc = 3)
  | .aOnoff q pc, .aBcast w _ => decide (pc = 1 ∧ w = q)
  | .aOnoff _ pc, .aFrame _ _ => decide (pc = 2)
  | .aInit pc, .aStateset _ => decide (pc = 1)
  | .aInit pc, .aPwmload m _ _ => decide (pc = 2 ∧ m = Config.pwmInit)
  | .aShow _ q pc, .aOnoff w _ => decide (pc = 2 ∧ q = some w)
  | .aShow _ _ pc, .aFrame _ _ => decide (pc = 3)
  | .aShow _ _ pc, .aPwm _ _ => decide (pc = 4)
  | .aShow _ _ pc, .aDelay n => decide (pc = 5 ∧ n = Config.showMs)
  | .aRun _ _ _ pc, .aInit _ => decide (pc = 1)
  | .aRun _ _ c pc, .aShow c' _ _ => decide (pc = 2 ∧ c' = c)
  | _, _ => false

/-- Each record of the stack, top first, was called by the one below it (10_state.md R15, R16). -/
def callsOk : List Record → Bool
  | [] => true
  | [_] => true
  | child :: parent :: rest => parent.calls child && callsOk (parent :: rest)

/-- The levels the four lines hold when `r` is the next record to step (40_primitives.md R86). DATA holds the bit of the
cell under way; between two cells, before the closing `Set(DATA, 0)`, it holds the bit of the last one. -/
def Record.pinsOk (q : Pins) : Record → Bool
  | .aSer shr i ph =>
    decide (q.te = false ∧ q.pwmclk = false ∧ (q.clock = true ↔ ph = 2 ∨ ph = 3) ∧
      (ph = 0 → i.val = 0 → q.data = false) ∧ (ph ≠ 0 → q.data = serBit shr))
  | .aFrame _ ph =>
    decide (q.data = false ∧ q.pwmclk = false ∧ (q.te = true ↔ ph ≠ 0) ∧ (q.clock = true ↔ ph = 3 ∨ ph = 4))
  | .aPwm _ ph => decide (q.data = false ∧ q.clock = false ∧ q.te = false ∧ (q.pwmclk = true ↔ ph = 1))
  | .aDelay _ | .aBcast _ _ | .aStateset _ | .aPwmload _ _ _ | .aOnoff _ _ | .aInit _ | .aShow _ _ _ | .aRun _ _ _ _ =>
    decide (q = Pins.low)

/-- The levels of the lines against the top of the stack; all low when idle (R13). -/
def pinsOk (q : Pins) : List Record → Bool
  | [] => decide (q = Pins.low)
  | r :: _ => r.pinsOk q

/-- The record at the bottom of the stack is that of `RUN 0`. -/
def endsInRunZero (k : List Record) : Bool :=
  match k.getLast? with
  | some (.aRun n _ _ _) => decide (n = 0#16)
  | _ => false

/-- In AUTORUN mode the record of `RUN 0` is at the bottom of the stack, from reset for ever (10_state.md R27). -/
def bootOk (p : Params) (k : List Record) : Bool := decide (p.bootMode = .hosted) || endsInRunZero k

/-- A good state: the invariant of the machine. -/
structure State.Good (s : State) : Prop where
  /-- a configuration the spec admits (D6) -/
  legal : s.params.legal = true
  /-- every record's fields -/
  records : s.stack.all (Record.ok s.params) = true
  /-- the stack is a chain of calls -/
  calls : callsOk s.stack = true
  /-- the pin registers hold what the top record left on the lines -/
  pins : pinsOk s.pins s.stack = true
  /-- the reset program of AUTORUN never leaves the stack -/
  boot : bootOk s.params s.stack = true

/-- The trace and the pin registers agree: the registers hold what the events written since reset leave (R10, R30). -/
def State.TraceOk (s : State) : Prop := s.pins = pinsAfter Pins.low s.trace

/-- From `s` the machine runs, step by step and BUSY at every step before the last, to `t`: `n` steps. -/
def RunsTo : Nat → State → State → Prop
  | 0, s, t => s = t
  | n + 1, s, t => s.busy = true ∧ ∃ u, step s = .next u ∧ RunsTo n u t

/-- The operation `i`, given to `s`, is taken and runs to its end with the trace `tr`: the CORE is idle again, the lines
are back at their levels, `tr` stands at the end of the trace, and nothing else has changed. -/
def Completes (i : Instr) (s : State) (tr : List Event) : Prop :=
  ∃ u n, exec i s = .next u ∧ RunsTo n u { s with trace := s.trace ++ tr, host := { s.host with offer := none } }

/-- The record an operation is taken as: the "created as" column of 10_state.md R16. A wire command is taken as the
frame of its pulse count (43_wire_commands.md R130; log entry 11). -/
def created : Instr → Record
  | .ser w => .aSer w 0 0
  | .bcast w => .aBcast w 0
  | .frame k => .aFrame k 0
  | .pwmclk n => .aPwm n 0
  | .delay n => .aDelay n
  | .stateset => .aStateset 0
  | .pwmload m => .aPwmload m 0 0
  | .onoff p => .aOnoff p 0
  | .showA => .aShow .chA none 0
  | .showB => .aShow .chB none 0
  | .showC => .aShow .chC none 0
  | .init => .aInit 0
  | .run n => .aRun n 0#16 .chA 0
  | .wcmdStore => .aFrame Config.opcStore 0
  | .wcmdLatch => .aFrame Config.opcLatch 0
  | .wcmdOnoff => .aFrame Config.opcOnoff 0
  | .wcmdState1 => .aFrame Config.opcState1 0
  | .wcmdState2 => .aFrame Config.opcState2 0

/-- SHOW and RUN, the operations a CORE with CNT_W below 16 cannot express (42_display_program.md R115 corner case d). -/
def needsShow : Instr → Bool
  | .showA | .showB | .showC | .run _ => true
  | .ser _ | .bcast _ | .frame _ | .pwmclk _ | .delay _ | .stateset | .pwmload _ | .onoff _ | .init
  | .wcmdStore | .wcmdLatch | .wcmdOnoff | .wcmdState1 | .wcmdState2 => false

/-- The five columns of 40_primitives.md R89 and 70_reset_and_hazards.md R190: events, waits, rising edges of CLOCK, TE
windows, rising edges of PWMCLK. -/
def Counts (t : List Event) (events nWaits clockRises teWindows pwmRises : Nat) : Prop :=
  t.length = events ∧ waits t = nWaits ∧ writes .clock true t = clockRises ∧ writes .te true t = teWindows ∧
    writes .pwmclk true t = pwmRises

/-- No event of the trace writes line `p`. -/
def Untouched (p : Line) (t : List Event) : Prop := writes p false t = 0 ∧ writes p true t = 0

/-- The opcodes of the wire commands among the items the sink was sent, in order. -/
def opcodes (items : List WireItem) : List Nat :=
  items.filterMap fun x => match x with
    | .bits _ => none
    | .cmd k => some k

end Sys2Proof.Machine
end

