-- ==== Sys2Proof/Certificates/Slice0/Obligations.lean ====
section
/-! DEFINITION. The statements for the provers, each a `def Obligations.<Name> : Prop`. What each rests on stands in
OBLIGATIONS.json. -/

open Sys2Proof Sys2Proof.Machine

/-! ### Encoding -/

/-- Decoding the encoding of a well-formed instruction gives it back, at every CNT_W (R71, R72, R65). -/
def Obligations.DecodeOfEncode : Prop :=
  ∀ (cntW : Nat) (i : Instr), i.wf cntW = true → decode cntW (encode i) = .ok i

/-- A request that decodes is the encoding of what it decodes to, and that is well-formed: every word has at most one
meaning, and no accepted word has a bit the instruction forgets. -/
def Obligations.EncodeOfDecode : Prop :=
  ∀ (cntW : Nat) (q : Request) (i : Instr), decode cntW q = .ok i → encode i = q ∧ i.wf cntW = true

/-- The refused command words are those R73 lists, and no other. -/
def Obligations.RefusedCommandWords : Prop :=
  ∀ (cntW : Nat) (op : BitVec 4) (arg : Word),
    (∃ e, decodeCommand cntW (op ++ arg) = .error e) ↔
      (0xB ≤ op.toNat ∨ ((op = 0x5#4 ∨ op = 0x9#4) ∧ arg ≠ 0#16) ∨ (op = 0x8#4 ∧ 2 < arg.toNat) ∨
        ((op = 0x2#4 ∨ op = 0x3#4) ∧ ∃ j, cntW ≤ j ∧ arg.getLsbD j = true))

/-- With CNT_W = 16 the number of accepted command words is 524293 (R73). -/
def Obligations.AcceptedWordCount : Prop :=
  (List.range (2 ^ 20)).countP (fun w => (decodeTableWord 24 w).isSome) = 524293

/-- All twenty words of the spec's own decoding table (95_test_vectors.md V-DEC) decode as it says. -/
def Obligations.SpecWordsDecode : Prop :=
  decodeTableWord 24 0x0C880 = some (.ser 0xC880#16) ∧ decodeTableWord 24 0x1C880 = some (.bcast 0xC880#16) ∧
  decodeTableWord 24 0x2000D = some (.frame 13#16) ∧ decodeTableWord 24 0x20000 = some (.frame 0#16) ∧
  decodeTableWord 24 0x3FFFF = some (.pwmclk 65535#16) ∧
  decodeTableWord 24 0x40064 = some (.delay 100#16) ∧ decodeTableWord 24 0x50000 = some .stateset ∧
  decodeTableWord 24 0x67FFF = some (.pwmload 0x7FFF#16) ∧ decodeTableWord 24 0x71234 = some (.onoff 0x1234#16) ∧
  decodeTableWord 24 0x80000 = some .showA ∧ decodeTableWord 24 0x80002 = some .showC ∧
  decodeTableWord 24 0x90000 = some .init ∧ decodeTableWord 24 0xA0000 = some (.run 0#16) ∧
  decodeTableWord 24 0xA0002 = some (.run 2#16) ∧
  decodeTableWord 24 0x50001 = none ∧ decodeTableWord 24 0x80003 = none ∧ decodeTableWord 24 0x80004 = none ∧
  decodeTableWord 24 0x90001 = none ∧ decodeTableWord 24 0xB0000 = none ∧ decodeTableWord 24 0xFFFFF = none

/-- The wire commands in use are the five of R66, each with its pulse count; another count has the meaning of none. -/
def Obligations.WireOpcodeMap : Prop :=
  ∀ (k : Word) (i : Instr), decodeWire k = .ok i ↔
    (k = 0#16 ∧ i = .wcmdStore) ∨ (k = 2#16 ∧ i = .wcmdLatch) ∨ (k = 7#16 ∧ i = .wcmdOnoff) ∨
      (k = 13#16 ∧ i = .wcmdState1) ∨ (k = 15#16 ∧ i = .wcmdState2)

/-- Reading back the written form of an operation gives the operation (R75). -/
def Obligations.ReadOfWritten : Prop :=
  ∀ (cntW : Nat) (i : Instr) (text : List Char),
    i.wf cntW = true → written i = some text → readLine cntW text = .operation i

/-! ### Reset -/

/-- The state right after reset, in both boot modes (R30), and the hardwired constants (R22). -/
def Obligations.StateAfterReset : Prop :=
  (∀ (p : Params) (h : HostPort),
    (State.resetOf p h).pins = ⟨false, false, false, false⟩ ∧ (State.resetOf p h).trace = [] ∧
    (p.bootMode = .autorun →
      (State.resetOf p h).stack = [.aRun 0#16 0#16 .chA 0] ∧ (State.resetOf p h).busy = true) ∧
    (p.bootMode = .hosted → (State.resetOf p h).stack = [] ∧ (State.resetOf p h).busy = false)) ∧
  Config.ssd1 = 0x0000#16 ∧ Config.ssd2 = 0xC880#16 ∧ Config.opcState1 = 13#16 ∧ Config.opcState2 = 15#16 ∧
  Config.opcStore = 0#16 ∧ Config.opcLatch = 2#16 ∧ Config.opcOnoff = 7#16 ∧ Config.pwmInit = 0x7FFF#16 ∧
  Config.pwmHold = 0xFFFF#16 ∧ Config.showMs = 100#16 ∧ Config.nIcs = 2 ∧ Config.nCh = 16 ∧ Config.wordW = 16

/-- A step with reset asserted puts the CORE into its reset state (R170, R30), whatever it was doing and whatever is
offered: the step is not taken and the command is not accepted (R152). That the parameters stay and the offer is dropped
is the model's choice (log entry 16). -/
def Obligations.ResetWins : Prop :=
  ∀ s : State, s.host.reset = true →
    ∃ t, step s = .next t ∧ t.pins = Pins.low ∧ t.stack = bootStack s.params.bootMode ∧ t.trace = [] ∧
      t.params = s.params ∧ t.host.offer = none

/-- The default configuration and every legal one start in a good state whose pins agree with its trace. -/
def Obligations.ResetIsGood : Prop :=
  State.reset.Good ∧ ∀ (p : Params) (h : HostPort), p.legal = true →
    (State.resetOf p h).Good ∧ (State.resetOf p h).TraceOk

/-- The first event of a CORE that boots in AUTORUN is `Set(DATA, 0)`, bit 0 of SSD1 (R30). -/
def Obligations.FirstEventAfterReset : Prop :=
  ∀ (p : Params) (h : HostPort), p.legal = true → p.bootMode = .autorun → h.reset = false →
    ∃ n u, RunsTo n (State.resetOf p h) u ∧ u.trace = [.set .data (Config.ssd1.getLsbD 0)] ∧
      Config.ssd1.getLsbD 0 = false

/-! ### Taking commands -/

/-- In HOSTED mode the idle CORE takes every instruction: its record, as R16 creates it, is pushed, BUSY is set, and
nothing else changes. -/
def Obligations.TakingPushesTheRecord : Prop :=
  ∀ (i : Instr) (s : State), s.params.bootMode = .hosted → s.stack = [] → i.wf s.params.cntW = true →
    (needsShow i = true → s.params.canShow = true) →
    exec i s = .next { s with stack := [created i] } ∧ ({ s with stack := [created i] } : State).busy = true

/-- A step of the idle CORE in HOSTED mode runs the instruction the offered request decodes to; the offer is taken off
the interface. With no offer it runs the host's next line. The two inputs, and that an offer goes before the lines, are
the model's choice (log entry 6). -/
def Obligations.StepRunsTheDecodedInstruction : Prop :=
  ∀ (s : State) (q : Request) (i : Instr), s.host.reset = false → s.params.legal = true →
    s.params.bootMode = .hosted → s.stack = [] → decode s.params.cntW q = .ok i →
    (s.host.offer = some q → step s = exec i { s with host := { s.host with offer := none } }) ∧
    (∀ rest, s.host.offer = none → s.host.program = q :: rest →
      step s = exec i { s with host := { s.host with program := rest } })

/-- `withFetchWord` puts an instruction where the very next step takes it. -/
def Obligations.PresentedWordRuns : Prop :=
  ∀ (s : State) (nbits w : Nat) (i : Instr), decodeTableWord nbits w = some i → s.params.cntW = 16 →
    step (s.withFetchWord nbits w) = exec i (s.present none)

/-- A request that decodes to no operation has no effect at all (R154): the machine has no step for it, so no event, no
pin and no record. The host may withdraw it, and then nothing but the interface has changed. That a wire request with an
unused count is treated so, that an offer goes before the lines, and the host's move are the model's choices (log entries
12, 6, 8). -/
def Obligations.RefusedWordHasNoEffect : Prop :=
  ∀ (s : State) (q : Request) (e : DecodeError), s.host.reset = false → s.params.legal = true →
    s.params.bootMode = .hosted → s.stack = [] → decode s.params.cntW q = .error e →
    (s.host.offer = some q →
      step s = .refused (.refusedWord e) ∧ s.withdraw = { s with host := { s.host with offer := none } }) ∧
    (∀ rest, s.host.offer = none → s.host.program = q :: rest →
      step s = .refused (.refusedWord e) ∧ s.withdraw = { s with host := { s.host with program := rest } })

/-- A command offered while BUSY is not taken and not queued, and the running operation is not disturbed: the step is
the one the CORE takes with nothing offered. The host's own lines wait. -/
def Obligations.NotTakenWhileBusy : Prop :=
  ∀ (s : State) (q : Option Request), s.busy = true → s.host.reset = false →
    step { s with host := { s.host with offer := q } } = step { s with host := { s.host with offer := none } } ∧
    ∀ t, step s = .next t → t.host.offer = none ∧ t.host.program = s.host.program

/-- A CORE that boots in AUTORUN is BUSY for ever, from any good state on and whatever the host does, so no command is
ever taken. That a reset leaves the host its own lines is the model's choice (log entry 16). -/
def Obligations.AutorunIsAlwaysBusy : Prop :=
  ∀ s : State, s.Good → s.params.bootMode = .autorun →
    s.busy = true ∧ ∃ t, step s = .next t ∧ t.busy = true ∧ t.host.program = s.host.program

/-- The idle CORE in HOSTED mode with nothing given waits (the model's choice, log entry 9). -/
def Obligations.IdleCoreWaits : Prop :=
  ∀ s : State, s.host.reset = false → s.params.legal = true → s.params.bootMode = .hosted → s.stack = [] →
    s.host.offer = none → s.host.program = [] → step s = .next s

/-- BUSY is 1 exactly when the stack is not empty (R20). -/
def Obligations.BusyIsStackNotEmpty : Prop := ∀ s : State, s.busy = true ↔ s.stack ≠ []

/-- A CORE whose counts are too narrow for 0xFFFF refuses SHOW and RUN (R115 corner case d), and a CORE whose CNT_W is
outside 4..16, or that boots in AUTORUN with CNT_W below 16, takes no step (D6): log entry 14. From a good state the only
other refusal is that of a word that names no operation (R154). -/
def Obligations.NarrowCountsAreRefused : Prop :=
  (∀ (i : Instr) (s : State), needsShow i = true → s.params.cntW < 16 → exec i s = .refused .countTooNarrow) ∧
  (∀ s : State, s.host.reset = false →
    (s.params.cntW < 4 ∨ 16 < s.params.cntW ∨ (s.params.bootMode = .autorun ∧ s.params.cntW < 16)) →
    step s = .refused .illegalConfig) ∧
  (∀ (s : State) (x : Refusal), s.Good → step s = .refused x →
    s.stack = [] ∧ ((x = .countTooNarrow ∧ s.params.cntW < 16) ∨
      ∃ q u e, s.nextRequest = some (q, u) ∧ decode s.params.cntW q = .error e ∧ x = .refusedWord e))

/-! ### What a step does -/

/-- One step of a record does one of four things besides updating its own fields: it emits one event (and may then pop
itself), it pushes one record of a lower level, it pops itself, or it changes its own fields only; what is left of it is
the same record further on, no record below the top changes, and a `Set` writes its one pin register (R17). -/
def Obligations.OneThingAStep : Prop :=
  ∀ (s t : State) (r : Record) (rest : List Record), s.host.reset = false → s.stack = r :: rest → step s = .next t →
    (∃ (e : Event) (self : Option Record),
      (∀ r', self = some r' → r.continues r' = true) ∧
      t = { s with
        pins := s.pins.after e, trace := s.trace ++ [e], stack := self.toList ++ rest
        host := { s.host with offer := none } }) ∨
    (∃ child r' : Record,
      r.continues r' = true ∧ child.level < r.level ∧
      t = { s with stack := child :: r' :: rest, host := { s.host with offer := none } }) ∨
    t = { s with stack := rest, host := { s.host with offer := none } } ∨
    (∃ r' : Record, r.continues r' = true ∧ t = { s with stack := r' :: rest, host := { s.host with offer := none } })

/-- Writing one pin register changes that one and no other (R10). -/
def Obligations.PinWriteChangesOneRegister : Prop :=
  ∀ (q : Pins) (p p' : Line) (v : Level), (q.set p v).get p' = if p' = p then v else q.get p'

/-- Which operation writes which pin register (R12): a step that emits a write of DATA is a step of SER, of CLOCK one of
SER or FRAME, of TE one of FRAME, of PWMCLK one of PWMCLK; a step that emits no write leaves the pins alone; and no step
reads a pin register. -/
def Obligations.WhoWritesWhichPin : Prop :=
  ∀ s t : State, s.host.reset = false → step s = .next t →
    ((t.trace = s.trace ∨ ∃ n, t.trace = s.trace ++ [.wait n]) ∧ t.pins = s.pins ∨
      ∃ (p : Line) (v : Level) (r : Record) (rest : List Record),
        t.trace = s.trace ++ [.set p v] ∧ t.pins = s.pins.set p v ∧ s.stack = r :: rest ∧
        match p with
        | .data => ∃ shr i ph, r = .aSer shr i ph
        | .clock => (∃ shr i ph, r = .aSer shr i ph) ∨ ∃ k ph, r = .aFrame k ph
        | .te => ∃ k ph, r = .aFrame k ph
        | .pwmclk => ∃ n ph, r = .aPwm n ph) ∧
    ∀ q : Pins, ∃ q' : Pins, step { s with pins := q } = .next { t with pins := q' }

/-- The parameters of a CORE never change (R22, R26), not even by reset (R30). -/
def Obligations.ParametersNeverChange : Prop :=
  ∀ s t : State, step s = .next t → t.params = s.params

/-- The character table is read only by the first step of SHOW (R119): at any other state, another table makes no
difference. -/
def Obligations.TableReadOnlyByShow : Prop :=
  ∀ (s t : State) (b : Table),
    (∀ (c : Character) (q : Option Word) (rest : List Record), s.stack ≠ .aShow c q 0 :: rest) →
    step s = .next t →
    step { s with params := { s.params with table := b } } = .next { t with params := { t.params with table := b } }

/-- The record of SHOW at its first step takes the pattern of its character from the table (R43, R121). -/
def Obligations.ShowLooksUpItsPattern : Prop :=
  ∀ (s : State) (c : Character) (q : Option Word) (rest : List Record), s.host.reset = false →
    s.params.legal = true → s.params.cntW = 16 → s.stack = .aShow c q 0 :: rest →
    step s = .next { s with
      stack := .aShow c (some (match c with
        | .chA => s.params.table.a
        | .chB => s.params.table.b
        | .chC => s.params.table.c)) 1 :: rest
      host := { s.host with offer := none } }

/-- After `i` shifts bit 0 of the shift register is W[i], and after sixteen it is 0 whatever W was (R85). -/
def Obligations.ShiftRegisterPresentsTheBits : Prop :=
  ∀ (w : Word) (i : Nat), serBit (Nat.repeat serShift i w) = w.getLsbD i ∧ Nat.repeat serShift 16 w = 0#16

/-! ### The operations run to their end with the trace of their rule -/

/-- `SER W` (R80): sixteen bit cells, bit 0 first, then DATA low; 81 events, 17 writes of DATA, 32 of CLOCK, none of TE
or PWMCLK. -/
def Obligations.SerSendsTheWord : Prop :=
  ∀ (s : State) (w : Word), s.Ready →
    let tr := traceSer s.params.tHold w
    encode (.ser w) = .command (0x0#4 ++ w) ∧ Completes (.ser w) s tr ∧ Counts tr 81 32 16 0 0 ∧
    writes .data false tr + writes .data true tr = 17 ∧ writes .clock false tr = 16 ∧
    Untouched .te tr ∧ Untouched .pwmclk tr

/-- `BCAST W` (R81): the word twice with nothing between; 162 events, none of TE or PWMCLK. What the chain's
stages then hold is `BroadcastFillsTheChain` (log entry 28). -/
def Obligations.BcastSendsTheWordTwice : Prop :=
  ∀ (s : State) (w : Word), s.Ready →
    let tr := traceSer s.params.tHold w ++ traceSer s.params.tHold w
    encode (.bcast w) = .command (0x1#4 ++ w) ∧ Completes (.bcast w) s tr ∧ Counts tr 162 64 32 0 0 ∧
    Untouched .te tr ∧ Untouched .pwmclk tr

/-- `FRAME K` (R82), for every count, 0 among them: TE high, K pulses each waited for before its rising edge, one more
wait, TE low; 4K + 3 events, none of DATA or PWMCLK; TE is written twice, so it is high without a gap. -/
def Obligations.FrameGivesExactlyKPulses : Prop :=
  ∀ (s : State) (k : Word), s.Ready → countFits s.params.cntW k →
    let h := s.params.tHold
    let tr := [.set .te true] ++ times [.wait h, .set .clock true, .wait h, .set .clock false] k.toNat ++
      [.wait h, .set .te false]
    encode (.frame k) = .command (0x2#4 ++ k) ∧ Completes (.frame k) s tr ∧
    Counts tr (4 * k.toNat + 3) (2 * k.toNat + 1) k.toNat 1 0 ∧ writes .te false tr = 1 ∧
    Untouched .data tr ∧ Untouched .pwmclk tr

/-- `PWMCLK N` (R83), for every count: N full cycles with no wait; 2N events, none for N = 0, none of another line. -/
def Obligations.PwmclkGivesExactlyNCycles : Prop :=
  ∀ (s : State) (n : Word), s.Ready → countFits s.params.cntW n →
    let tr := times [.set .pwmclk true, .set .pwmclk false] n.toNat
    encode (.pwmclk n) = .command (0x3#4 ++ n) ∧ Completes (.pwmclk n) s tr ∧ Counts tr (2 * n.toNat) 0 0 0 n.toNat ∧
    Untouched .data tr ∧ Untouched .clock tr ∧ Untouched .te tr

/-- `DELAY n` (R84), 0 among the values: one call of the Timing interface and nothing else. -/
def Obligations.DelayWaitsOnce : Prop :=
  ∀ (s : State) (n : Word), s.Ready →
    encode (.delay n) = .command (0x4#4 ++ n) ∧ Completes (.delay n) s [.wait n]

/-- `STATESET` (R100): the two (broadcast, frame) pairs with the literal values; 442 events. It is accepted any number
of times, whatever was sent before (R158): the trace of `s` is any. -/
def Obligations.StatesetSendsItsTwoPairs : Prop :=
  ∀ s : State, s.Ready →
    let h := s.params.tHold
    let tr := traceBcast h 0x0000#16 ++ traceFrame h 13#16 ++ traceBcast h 0xC880#16 ++ traceFrame h 15#16
    encode .stateset = .command 0x50000#20 ∧ Completes .stateset s tr ∧ Counts tr 442 186 92 2 0 ∧
    Untouched .pwmclk tr ∧
    wireDecode tr Pins.low = ⟨[bcastItem 0x0000#16, .cmd 13, bcastItem 0xC880#16, .cmd 15], 0, Pins.low⟩

/-- `PWMLOAD M` (R101): sixteen broadcasts of M, each followed at once by a frame of 0, then one frame of 2; 2651
events, 17 TE windows. -/
def Obligations.PwmloadLoadsSixteenChannels : Prop :=
  ∀ (s : State) (m : Word), s.Ready →
    let h := s.params.tHold
    let tr := times (traceBcast h m ++ traceFrame h 0#16) 16 ++ traceFrame h 2#16
    encode (.pwmload m) = .command (0x6#4 ++ m) ∧ Completes (.pwmload m) s tr ∧ Counts tr 2651 1045 514 17 0 ∧
    Untouched .pwmclk tr ∧
    wireDecode tr Pins.low =
      ⟨(List.replicate 16 [bcastItem m, WireItem.cmd 0]).flatten ++ [.cmd 2], 0, Pins.low⟩

/-- `ONOFF P` (R102): the broadcast of the mask and a frame of 7; 193 events. -/
def Obligations.OnoffSendsTheMask : Prop :=
  ∀ (s : State) (p : Word), s.Ready →
    let tr := traceBcast s.params.tHold p ++ traceFrame s.params.tHold 7#16
    encode (.onoff p) = .command (0x7#4 ++ p) ∧ Completes (.onoff p) s tr ∧ Counts tr 193 79 39 1 0 ∧
    Untouched .pwmclk tr ∧ wireDecode tr Pins.low = ⟨[bcastItem p, .cmd 7], 0, Pins.low⟩

/-- `SHOW c` (R115), for each character: the pattern as on/off state, the latch, 65535 cycles of PWMCLK, one wait of
100; 131275 events. -/
def Obligations.ShowDisplaysItsCharacter : Prop :=
  ∀ s : State, s.Ready → s.params.cntW = 16 →
    let h := s.params.tHold
    let tr := fun pat : Word => traceBcast h pat ++ traceFrame h 7#16 ++ traceFrame h 2#16 ++
      times [.set .pwmclk true, .set .pwmclk false] 65535 ++ [.wait 100#16]
    Completes .showA s (tr s.params.table.a) ∧ Completes .showB s (tr s.params.table.b) ∧
    Completes .showC s (tr s.params.table.c) ∧
    ∀ pat, Counts (tr pat) 131275 85 41 2 65535 ∧
      wireDecode (tr pat) Pins.low = ⟨[bcastItem pat, .cmd 7, .cmd 2], 65535, Pins.low⟩

/-- `INIT` (R116): STATESET, then PWMLOAD 0x7FFF; 3093 events, 19 frames: 13, 15, sixteen times 0, 2. -/
def Obligations.InitRunsThePowerOnSequence : Prop :=
  ∀ s : State, s.Ready →
    let tr := traceStateset s.params.tHold ++ tracePwmload s.params.tHold 0x7FFF#16
    encode .init = .command 0x90000#20 ∧ Completes .init s tr ∧ Counts tr 3093 1231 606 19 0 ∧ Untouched .pwmclk tr ∧
    (wireDecode tr Pins.low).pwm = 0 ∧ (wireDecode tr Pins.low).pins = Pins.low ∧
    (wireDecode tr Pins.low).items =
      [bcastItem 0x0000#16, .cmd 13, bcastItem 0xC880#16, .cmd 15] ++
        (List.replicate 16 [bcastItem 0x7FFF#16, WireItem.cmd 0]).flatten ++ [.cmd 2] ∧
    opcodes (wireDecode tr Pins.low).items = [13, 15, 0, 0, 0, 0, 0, 0, 0, 0, 0, 0, 0, 0, 0, 0, 0, 0, 2]

/-- `RUN n` with a bound (R118): INIT, then n SHOWs, of A, B, C, A, ... in that order; 3093 + 131275 n events. -/
def Obligations.BoundedRunShowsNCharacters : Prop :=
  ∀ (s : State) (n : Word), s.Ready → s.params.cntW = 16 → n ≠ 0#16 →
    let tr := traceInit s.params.tHold ++ traceShows s.params.tHold s.params.table .chA n.toNat
    encode (.run n) = .command (0xA#4 ++ n) ∧ Completes (.run n) s tr ∧
    Counts tr (3093 + 131275 * n.toNat) (1231 + 85 * n.toNat) (606 + 41 * n.toNat) (19 + 2 * n.toNat)
      (65535 * n.toNat) ∧
    wireDecode tr Pins.low =
      ⟨(wireDecode (traceInit s.params.tHold) Pins.low).items ++
        (List.range n.toNat).flatMap (fun m =>
          [bcastItem (readTable s.params.table (Nat.repeat nextChar m .chA)), WireItem.cmd 7, .cmd 2]),
        65535 * n.toNat, Pins.low⟩

/-- The five wire commands (R130 to R135): each is one TE window with its pulse count. -/
def Obligations.WireCommandsAreTheirFrames : Prop :=
  ∀ s : State, s.Ready →
    Completes .wcmdStore s [.set .te true, .wait s.params.tHold, .set .te false] ∧
    Completes .wcmdLatch s (traceFrame s.params.tHold 2#16) ∧
    Completes .wcmdOnoff s (traceFrame s.params.tHold 7#16) ∧
    Completes .wcmdState1 s (traceFrame s.params.tHold 13#16) ∧
    Completes .wcmdState2 s (traceFrame s.params.tHold 15#16) ∧
    (traceFrame s.params.tHold 7#16).length = 31 ∧ (traceFrame s.params.tHold 13#16).length = 55 ∧
    (traceFrame s.params.tHold 15#16).length = 63

/-- `RUN 0` is taken and never ends: while no reset comes, every step of a good state with its record at the bottom
leaves that record there, so the CORE stays BUSY (R118 corner case a, R120). -/
def Obligations.RunZeroNeverEnds : Prop :=
  (∀ s : State, s.Ready → s.params.cntW = 16 → exec (.run 0#16) s = .next { s with stack := [.aRun 0#16 0#16 .chA 0] }) ∧
  ∀ s : State, s.Good → s.host.reset = false → endsInRunZero s.stack = true →
    ∃ t, step s = .next t ∧ t.Good ∧ t.host.reset = false ∧ endsInRunZero t.stack = true ∧ t.busy = true

/-- From reset in AUTORUN the CORE sends INIT and then shows A, B, C, A, ...: for every m it comes to have sent exactly
INIT and m SHOWs, with the display state at the m-th character of the cycle, and it has been BUSY all the way (R172). -/
def Obligations.AutorunShowsForEver : Prop :=
  ∀ (p : Params) (h : HostPort), p.legal = true → p.bootMode = .autorun → h.reset = false →
    ∀ m : Nat, ∃ n u, RunsTo n (State.resetOf p h) u ∧
      u.trace = traceInit p.tHold ++ traceShows p.tHold p.table .chA m ∧
      u.stack = [.aRun 0#16 0#16 (Nat.repeat nextChar m .chA) 1] ∧ u.pins = Pins.low ∧
      opcodes (wireDecode u.trace Pins.low).items =
        [13, 15, 0, 0, 0, 0, 0, 0, 0, 0, 0, 0, 0, 0, 0, 0, 0, 0, 2] ++ (List.replicate m [7, 2]).flatten ∧
      u.host.program = h.program

/-! ### What the wire delivers -/

/-- What `Decode` gives for the primitives started from idle (R140). -/
def Obligations.DecodeOfPrimitives : Prop :=
  ∀ (h w k : Word),
    wireDecode (traceSer h w) Pins.low = ⟨[.bits (wordBits w)], 0, Pins.low⟩ ∧
    wireDecode (traceBcast h w) Pins.low = ⟨[.bits (wordBits w ++ wordBits w)], 0, Pins.low⟩ ∧
    wireDecode (traceFrame h k) Pins.low = ⟨[.cmd k.toNat], 0, Pins.low⟩ ∧
    wireDecode (tracePwmclk k) Pins.low = ⟨[], k.toNat, Pins.low⟩ ∧
    wireDecode (traceDelay k) Pins.low = ⟨[], 0, Pins.low⟩

/-- After a broadcast of W from idle the 32 stages of a chain that is in step hold W twice (R42, R137), whatever it held
and whatever is known of it at the trace's start. That R42 is said only of a chain known to be in step is the model's
reading (log entry 28). -/
def Obligations.BroadcastFillsTheChain : Prop :=
  ∀ (c : Chain) (t : List Event) (q : Pins) (h w : Word), pinsAfter q t = Pins.low → (chainAfter c q t).sync = .inStep →
    chainFrom c q (t ++ traceBcast h w) = some (wordBits w ++ wordBits w)

/-- What a chain that is in step holds after a broadcast and a frame: the word still after a frame of 0 or 7 pulses (R101
corner case d, R132), and nothing known after any other. After one of 2 pulses a lone `SER` leaves half a chain unknown
(R180); after one of any count but 0, 2 and 7, an unused one among them (R70), a broadcast alone leaves nothing known
(R187). Log entry 28. -/
def Obligations.ChainIsKnownOnlyWhereTheSpecSaysSo : Prop :=
  ∀ (c : Chain) (t : List Event) (q : Pins) (h w x k : Word), pinsAfter q t = Pins.low →
    (chainAfter c q t).sync = .inStep → (chainAfter c q t).bits.length % 16 = 0 →
    chainFrom c q (t ++ traceBcast h w ++ traceFrame h k) =
      (if k = 0#16 ∨ k = 7#16 then some (wordBits w ++ wordBits w) else none) ∧
    chainFrom c q (t ++ traceBcast h w ++ traceFrame h 2#16 ++ traceSer h x) = none ∧
    (k ≠ 0#16 → k ≠ 2#16 → k ≠ 7#16 →
      chainFrom c q (t ++ traceBcast h w ++ traceFrame h k ++ traceBcast h x) = none)

/-- The next full State-Setting Sequence brings the chain into step, whatever was sent before and whatever is known of the
chain (R171, R187): after it a broadcast of W leaves W in all 32 stages. -/
def Obligations.StateSettingRestoresStep : Prop :=
  ∀ (c : Chain) (t : List Event) (q : Pins) (h w : Word), pinsAfter q t = Pins.low →
    (chainAfter c q (t ++ traceStateset h)).sync = .inStep ∧
    chainFrom c q (t ++ traceStateset h ++ traceBcast h w) = some (wordBits w ++ wordBits w)

/-- Where anything is known of the chain after a trace from reset, a full State-Setting Sequence has been sent, and since
then no frame but of 0, 2 or 7 pulses. So channel data sent earlier is given no effect on the sink (R174), and a broadcast
alone does not bring back a chain that an aborted operation or a wrong count may have left out of step (R171, R187; log
entry 28). -/
def Obligations.NothingKnownBeforeStateSetting : Prop :=
  ∀ (t : List Event) (q : Pins), chain q t ≠ none →
    ∃ (before after : List WireItem) (b : List Level),
      (wireDecode t q).items = before ++ [.bits (b ++ wordBits Config.ssd1 ++ wordBits Config.ssd1), .cmd 13,
        bcastItem Config.ssd2, .cmd 15] ++ after ∧
      ∀ k, WireItem.cmd k ∈ after → k = 0 ∨ k = 2 ∨ k = 7

/-- Two words sent one after the other, then a frame, are delivered as they were sent (R141). -/
def Obligations.DifferentWordsAreDelivered : Prop :=
  ∀ (h x y k : Word), wireDecode (traceSer h x ++ traceSer h y ++ traceFrame h k) Pins.low =
    ⟨[.bits (wordBits x ++ wordBits y), .cmd k.toNat], 0, Pins.low⟩

/-- `Decode` gives the same answer for two traces that differ in a wait or in a write that does not change its line
(R139). -/
def Obligations.DecodeIgnoresWaitsAndRedundantWrites : Prop :=
  ∀ (t u : List Event) (q : Pins),
    (∀ n, wireDecode (t ++ .wait n :: u) q = wireDecode (t ++ u) q) ∧
    ∀ (p : Line) (v : Level), (pinsAfter q t).get p = v → wireDecode (t ++ .set p v :: u) q = wireDecode (t ++ u) q

/-- The expansions of R77 are exact: the trace of an operation is the concatenation of the traces of its expansion. -/
def Obligations.ExpansionsAreExact : Prop :=
  ∀ (p : Params) (i : Instr) (l : List Instr), expansion p i = some l → tracesOf p l = traceOf p i

/-! ### Invariants -/

/-- Every step from a good state leads to a good state. -/
def Obligations.GoodIsKept : Prop := ∀ s t : State, s.Good → step s = .next t → t.Good

/-- Every step keeps the pin registers and the trace in agreement (R10). -/
def Obligations.TraceAgreementIsKept : Prop := ∀ s t : State, s.TraceOk → step s = .next t → t.TraceOk

/-- The CORE raises no exception (R150): no step of a good state faults, and while an operation is in progress every
step has a next state. With CNT_W = 16 the idle CORE has one too, where what it is given, if anything, decodes: with
nothing given that is the model's choice (log entry 9), and in AUTORUN it is log entry 10. -/
def Obligations.NoStepFaults : Prop :=
  ∀ s : State, s.Good →
    (∀ f, step s ≠ .fault f) ∧ (s.busy = true → ∃ t, step s = .next t) ∧
    (s.params.cntW = 16 → (∀ q u, s.nextRequest = some (q, u) → ∃ i, decode s.params.cntW q = .ok i) →
      ∃ t, step s = .next t)

/-- The stack of a good state is at most five deep, with the levels falling toward the top (R15, R16). -/
def Obligations.StackIsAtMostFiveDeep : Prop :=
  ∀ s : State, s.Good → s.stack.length ≤ 5 ∧ s.stack.Pairwise (fun r below => r.level < below.level)

/-- Whenever a step from a good state leaves no operation in progress, all four pin registers hold 0 (R13). -/
def Obligations.IdleLinesAreLow : Prop :=
  ∀ s t : State, s.Good → step s = .next t → t.busy = false →
    t.pins.data = false ∧ t.pins.clock = false ∧ t.pins.te = false ∧ t.pins.pwmclk = false

/-- The wire rules hold at every step of every operation (R178, R181): DATA moves only with CLOCK and TE low; TE moves
only with CLOCK low and no word under way; every write of CLOCK is an edge, and CLOCK rises with TE high exactly in the
pulses of a frame; every write of TE and of PWMCLK is an edge; PWMCLK moves only with the other three low (R83 e). -/
def Obligations.WireRulesHold : Prop :=
  ∀ s t : State, s.Good → s.host.reset = false → step s = .next t →
    ∀ (p : Line) (v : Level), t.trace = s.trace ++ [.set p v] →
      match p with
      | .data => s.pins.clock = false ∧ s.pins.te = false ∧ s.pins.pwmclk = false
      | .te => s.pins.te = !v ∧ s.pins.clock = false ∧ s.pins.data = false ∧
          ∀ r ∈ s.stack, ∀ shr i ph, r ≠ .aSer shr i ph
      | .clock => s.pins.clock = !v ∧ (s.pins.te = true ↔ ∃ k ph rest, s.stack = .aFrame k ph :: rest)
      | .pwmclk => s.pins.pwmclk = !v ∧ s.pins.data = false ∧ s.pins.clock = false ∧ s.pins.te = false
end

