-- ==== Sys2Proof/Laws/State.lean ====
section
/-! SUPPORT. One lemma per field of State and update of it, so that no later proof unfolds a record update. -/

namespace Sys2Proof.Machine

variable (s : State) (e : Event) (m : Move) (rest : List Record) (q : Option Request) (p : Params) (h : HostPort)

@[simp] theorem Pins.get_set_same (x : Pins) (l : Line) (v : Level) : (x.set l v).get l = v := by
  cases l <;> rfl

theorem Pins.get_set_other (x : Pins) (l l' : Line) (v : Level) (hne : l' ≠ l) : (x.set l v).get l' = x.get l' := by
  cases l <;> cases l' <;> first | rfl | exact absurd rfl hne

@[simp] theorem Pins.after_set (x : Pins) (l : Line) (v : Level) : x.after (.set l v) = x.set l v := rfl
@[simp] theorem Pins.after_wait (x : Pins) (n : Word) : x.after (.wait n) = x := rfl

@[simp] theorem State.emit_pins : (s.emit e).pins = s.pins.after e := rfl
@[simp] theorem State.emit_stack : (s.emit e).stack = s.stack := rfl
@[simp] theorem State.emit_trace : (s.emit e).trace = s.trace ++ [e] := rfl
@[simp] theorem State.emit_params : (s.emit e).params = s.params := rfl
@[simp] theorem State.emit_host : (s.emit e).host = s.host := rfl

@[simp] theorem State.emitOption_none : s.emitOption none = s := rfl
@[simp] theorem State.emitOption_some : s.emitOption (some e) = s.emit e := rfl

@[simp] theorem State.clearOffer_pins : s.clearOffer.pins = s.pins := rfl
@[simp] theorem State.clearOffer_stack : s.clearOffer.stack = s.stack := rfl
@[simp] theorem State.clearOffer_trace : s.clearOffer.trace = s.trace := rfl
@[simp] theorem State.clearOffer_params : s.clearOffer.params = s.params := rfl
@[simp] theorem State.clearOffer_reset : s.clearOffer.host.reset = s.host.reset := rfl
@[simp] theorem State.clearOffer_offer : s.clearOffer.host.offer = none := rfl
@[simp] theorem State.clearOffer_program : s.clearOffer.host.program = s.host.program := rfl

@[simp] theorem State.applyMove_stack :
    (s.applyMove m rest).stack = m.child.toList ++ m.self.toList ++ rest := rfl
@[simp] theorem State.applyMove_pins : (s.applyMove m rest).pins = (s.emitOption m.event).pins := rfl
@[simp] theorem State.applyMove_trace : (s.applyMove m rest).trace = (s.emitOption m.event).trace := rfl
@[simp] theorem State.applyMove_params : (s.applyMove m rest).params = s.params := by
  cases h : m.event <;> simp [State.applyMove, h]
@[simp] theorem State.applyMove_host : (s.applyMove m rest).host = s.host := by
  cases h : m.event <;> simp [State.applyMove, h]

@[simp] theorem State.resetOf_pins : (State.resetOf p h).pins = Pins.low := rfl
@[simp] theorem State.resetOf_stack : (State.resetOf p h).stack = bootStack p.bootMode := rfl
@[simp] theorem State.resetOf_trace : (State.resetOf p h).trace = [] := rfl
@[simp] theorem State.resetOf_params : (State.resetOf p h).params = p := rfl
@[simp] theorem State.resetOf_host : (State.resetOf p h).host = h := rfl

@[simp] theorem State.doReset_pins : s.doReset.pins = Pins.low := rfl
@[simp] theorem State.doReset_stack : s.doReset.stack = bootStack s.params.bootMode := rfl
@[simp] theorem State.doReset_trace : s.doReset.trace = [] := rfl
@[simp] theorem State.doReset_params : s.doReset.params = s.params := rfl
@[simp] theorem State.doReset_reset : s.doReset.host.reset = false := rfl
@[simp] theorem State.doReset_offer : s.doReset.host.offer = none := rfl
@[simp] theorem State.doReset_program : s.doReset.host.program = s.host.program := rfl

@[simp] theorem State.present_pins : (s.present q).pins = s.pins := rfl
@[simp] theorem State.present_stack : (s.present q).stack = [] := rfl
@[simp] theorem State.present_trace : (s.present q).trace = s.trace := rfl
@[simp] theorem State.present_offer : (s.present q).host.offer = q := rfl
@[simp] theorem State.present_bootMode : (s.present q).params.bootMode = .hosted := rfl

@[simp] theorem State.busy_cons (x : Pins) (r : Record) (k : List Record) (t : List Event) :
    (State.mk x (r :: k) t p h).busy = true := rfl
@[simp] theorem State.busy_nil (x : Pins) (t : List Event) : (State.mk x [] t p h).busy = false := rfl

end Sys2Proof.Machine
end

