-- ==== Sys2Proof/Laws/Ops.lean ====
section
/-! SUPPORT. One lemma per shared operation that says all it can do: taking a command, the moves of the records, the
loop counters. Proofs cite these and do not unfold the operations. -/

namespace Sys2Proof.Machine

open Host (Outcome)

theorem bump_val_of_lt {n : Nat} (x : Fin (n + 1)) (h : x.val < n) : (bump x).val = x.val + 1 := by
  simp [bump, h]

theorem bump_of_not_lt {n : Nat} (x : Fin (n + 1)) (h : ¬ x.val < n) : bump x = x := by
  simp [bump, h]

theorem countDown_toNat (k : Word) (h : k ≠ 0#16) : (countDown k).toNat + 1 = k.toNat := by
  unfold countDown
  have : k.toNat ≠ 0 := fun hk => h (BitVec.eq_of_toNat_eq (by simpa using hk))
  bv_omega

theorem busy_eq_false_iff (s : State) : s.busy = false ↔ s.stack = [] := by
  simp [State.busy]

theorem busy_eq_true_iff (s : State) : s.busy = true ↔ s.stack ≠ [] := by
  simp [State.busy]

/-- All the command interface can give: the offer, else the first of the host's lines, else nothing. -/
theorem nextRequest_cases {s u : State} {q : Request} (h : s.nextRequest = some (q, u)) :
    (s.host.offer = some q ∧ u = { s with host := { s.host with offer := none } }) ∨
      (s.host.offer = none ∧ ∃ rest, s.host.program = q :: rest ∧ u = { s with host := { s.host with program := rest } }) := by
  unfold State.nextRequest at h
  split at h
  · next q' _ ho =>
    obtain ⟨rfl, rfl⟩ := Prod.mk.inj (Option.some.inj h)
    exact .inl ⟨ho, rfl⟩
  · next q' rest ho hp =>
    obtain ⟨rfl, rfl⟩ := Prod.mk.inj (Option.some.inj h)
    exact .inr ⟨ho, rest, hp, rfl⟩
  · cases h

/-- The host's move after a refused word touches the command interface alone. -/
theorem withdraw_eq (s : State) :
    s.withdraw = { s with host := { s.host with offer := s.withdraw.host.offer, program := s.withdraw.host.program } } := by
  unfold State.withdraw
  cases h : s.nextRequest with
  | none => rfl
  | some a =>
    obtain ⟨q, u⟩ := a
    obtain ⟨_, rfl⟩ | ⟨_, _, _, rfl⟩ := nextRequest_cases h <;> rfl

/-- Taking a command always has a next state: the record pushed, or nothing changed. -/
theorem accept_cases {s t : State} {r : Record} (h : s.accept r = .next t) :
    (s.params.bootMode = .hosted ∧ s.stack = [] ∧ t = { s with stack := [r] }) ∨
      (¬ (s.params.bootMode = .hosted ∧ s.stack = []) ∧ t = s) := by
  unfold State.accept at h
  simp only [busy_eq_false_iff] at h
  split at h
  · next hc => exact .inl ⟨hc.1, hc.2, by simpa using h.symm⟩
  · next hc => exact .inr ⟨hc, by simpa using h.symm⟩

/-- The idle CORE in HOSTED mode takes the command. -/
theorem accept_idle {s : State} (hm : s.params.bootMode = .hosted) (hk : s.stack = []) (r : Record) :
    s.accept r = .next { s with stack := [r] } := by
  simp [State.accept, hm, (busy_eq_false_iff s).2 hk]

/-- `exec` takes the operation as its record; SHOW and RUN only where PWM_HOLD can be expressed. -/
theorem exec_eq (i : Instr) (s : State) :
    exec i s = if needsShow i = true ∧ s.params.canShow = false then .refused .countTooNarrow else s.accept (created i) := by
  cases i <;> simp only [exec, created, needsShow, execSer, execBcast, execFrame, execPwmclk, execDelay, execStateset,
    execPwmload, execOnoff, execShowA, execShowB, execShowC, execInit, execRun, execWcmdStore, execWcmdLatch,
    execWcmdOnoff, execWcmdState1, execWcmdState2, State.acceptShowing] <;>
    cases s.params.canShow <;> simp

/-- All an accepted instruction can do to the state: its record is pushed, or it is not taken. -/
theorem exec_cases {i : Instr} {s t : State} (h : exec i s = .next t) :
    (needsShow i = true → s.params.canShow = true) ∧
      ((s.params.bootMode = .hosted ∧ s.stack = [] ∧ t = { s with stack := [created i] }) ∨
        (¬ (s.params.bootMode = .hosted ∧ s.stack = []) ∧ t = s)) := by
  rw [exec_eq] at h
  split at h
  · cases h
  · next hc =>
    refine ⟨fun hn => ?_, accept_cases h⟩
    cases hs : s.params.canShow <;> simp_all

/-- The shapes of a move (10_state.md R17). -/
theorem moveRecord_shape {p : Params} {r : Record} {m : Move} (h : moveRecord p r = .next m) :
    (∃ e r', m = .emit e r') ∨ (∃ e, m = .emitPop e) ∨ m = .pop ∨ (∃ r', m = .become r') ∨ ∃ c r', m = .push c r' := by
  cases r with
  | aSer shr i ph =>
    simp only [moveRecord, moveSer, Outcome.next.injEq] at h
    split at h
    · split at h <;> exact .inl ⟨_, _, h.symm⟩
    · exact .inr (.inl ⟨_, h.symm⟩)
  | aFrame k ph =>
    simp only [moveRecord, moveFrame, Outcome.next.injEq] at h
    split at h <;> first | exact .inl ⟨_, _, h.symm⟩ | exact .inr (.inl ⟨_, h.symm⟩)
  | aPwm n ph =>
    simp only [moveRecord, movePwm, Outcome.next.injEq] at h
    split at h
    · split at h
      · exact .inr (.inr (.inl h.symm))
      · exact .inl ⟨_, _, h.symm⟩
    · exact .inl ⟨_, _, h.symm⟩
  | aDelay n =>
    simp only [moveRecord, moveDelay, Outcome.next.injEq] at h
    exact .inr (.inl ⟨_, h.symm⟩)
  | aBcast w j =>
    simp only [moveRecord, moveBcast, Outcome.next.injEq] at h
    split at h
    · exact .inr (.inr (.inr (.inr ⟨_, _, h.symm⟩)))
    · exact .inr (.inr (.inl h.symm))
  | aStateset pc =>
    simp only [moveRecord, moveStateset, Outcome.next.injEq] at h
    split at h <;> first
      | exact .inr (.inr (.inl h.symm))
      | exact .inr (.inr (.inr (.inr ⟨_, _, h.symm⟩)))
  | aPwmload w ch pc =>
    simp only [moveRecord, movePwmload, Outcome.next.injEq] at h
    split at h
    · split at h
      · exact .inr (.inr (.inr (.inr ⟨_, _, h.symm⟩)))
      · exact .inr (.inr (.inr (.inl ⟨_, h.symm⟩)))
    · exact .inr (.inr (.inr (.inr ⟨_, _, h.symm⟩)))
    · exact .inr (.inr (.inr (.inr ⟨_, _, h.symm⟩)))
    · exact .inr (.inr (.inl h.symm))
  | aOnoff w pc =>
    simp only [moveRecord, moveOnoff, Outcome.next.injEq] at h
    split at h <;> first
      | exact .inr (.inr (.inl h.symm))
      | exact .inr (.inr (.inr (.inr ⟨_, _, h.symm⟩)))
  | aInit pc =>
    simp only [moveRecord, moveInit, Outcome.next.injEq] at h
    split at h <;> first
      | exact .inr (.inr (.inl h.symm))
      | exact .inr (.inr (.inr (.inr ⟨_, _, h.symm⟩)))
  | aShow c w pc =>
    simp only [moveRecord, moveShow] at h
    split at h
    · split at h
      · exact .inr (.inr (.inr (.inl ⟨_, (Outcome.next.inj h).symm⟩)))
      · split at h
        · exact .inr (.inr (.inr (.inr ⟨_, _, (Outcome.next.inj h).symm⟩)))
        · cases h
      · exact .inr (.inr (.inr (.inr ⟨_, _, (Outcome.next.inj h).symm⟩)))
      · exact .inr (.inr (.inr (.inr ⟨_, _, (Outcome.next.inj h).symm⟩)))
      · exact .inr (.inr (.inr (.inr ⟨_, _, (Outcome.next.inj h).symm⟩)))
      · exact .inr (.inr (.inl (Outcome.next.inj h).symm))
    · cases h
  | aRun n done c pc =>
    simp only [moveRecord, moveRun] at h
    split at h
    · have h := Outcome.next.inj h
      split at h
      · exact .inr (.inr (.inr (.inr ⟨_, _, h.symm⟩)))
      · split at h
        · exact .inr (.inr (.inl h.symm))
        · exact .inr (.inr (.inr (.inr ⟨_, _, h.symm⟩)))
      · exact .inr (.inr (.inr (.inl ⟨_, h.symm⟩)))
    · cases h

/-- A move leaves its record of the same kind with its operands, and pushes only below the record's own level. -/
theorem moveRecord_self_child {p : Params} {r : Record} {m : Move} (h : moveRecord p r = .next m) :
    (∀ r', m.self = some r' → r.continues r' = true) ∧ ∀ c, m.child = some c → c.level < r.level := by
  cases r <;>
    simp only [moveRecord, moveSer, moveFrame, movePwm, moveDelay, moveBcast, moveStateset, movePwmload, moveOnoff,
      moveInit, moveShow, moveRun] at h <;>
    (repeat' split at h) <;> cases h <;>
    simp [Move.emit, Move.emitPop, Move.pop, Move.become, Move.push, Record.continues, Record.level]

end Sys2Proof.Machine
end

