-- ==== Sys2Proof/Laws/PerInstr.lean ====
section
/-! SUPPORT. A fact of every instruction as syntax: which level of encoding its request stands at (30_encoding.md R60),
and that its command word has the opcode of its row (R72). -/

namespace Sys2Proof.Laws.Level

/-- The request of `i`: the `op` field of its command word, or its pulse count. -/
def Statement (i : Instr) : Prop :=
  match i with
  | .ser _ => ∃ c, encode i = .command c ∧ opField c = 0x0#4
  | .bcast _ => ∃ c, encode i = .command c ∧ opField c = 0x1#4
  | .frame _ => ∃ c, encode i = .command c ∧ opField c = 0x2#4
  | .pwmclk _ => ∃ c, encode i = .command c ∧ opField c = 0x3#4
  | .delay _ => ∃ c, encode i = .command c ∧ opField c = 0x4#4
  | .stateset => ∃ c, encode i = .command c ∧ opField c = 0x5#4
  | .pwmload _ => ∃ c, encode i = .command c ∧ opField c = 0x6#4
  | .onoff _ => ∃ c, encode i = .command c ∧ opField c = 0x7#4
  | .showA | .showB | .showC => ∃ c, encode i = .command c ∧ opField c = 0x8#4
  | .init => ∃ c, encode i = .command c ∧ opField c = 0x9#4
  | .run _ => ∃ c, encode i = .command c ∧ opField c = 0xA#4
  | .wcmdStore => encode i = .wire 0#16
  | .wcmdLatch => encode i = .wire 2#16
  | .wcmdOnoff => encode i = .wire 7#16
  | .wcmdState1 => encode i = .wire 13#16
  | .wcmdState2 => encode i = .wire 15#16

/-- The `op` field of a command word is the opcode it was made from. -/
theorem opField_append (op : BitVec 4) (arg : Word) : opField (op ++ arg) = op := by
  exact BitVec.extractLsb'_append_eq_left

/-- The `arg` field of a command word is the argument it was made from. -/
theorem argField_append (op : BitVec 4) (arg : Word) : argField (op ++ arg) = arg := by
  exact BitVec.extractLsb'_append_eq_right

theorem ser (w : Word) : Statement (.ser w) := ⟨_, rfl, opField_append _ _⟩
theorem bcast (w : Word) : Statement (.bcast w) := ⟨_, rfl, opField_append _ _⟩
theorem frame (k : Word) : Statement (.frame k) := ⟨_, rfl, opField_append _ _⟩
theorem pwmclk (n : Word) : Statement (.pwmclk n) := ⟨_, rfl, opField_append _ _⟩
theorem delay (n : Word) : Statement (.delay n) := ⟨_, rfl, opField_append _ _⟩
theorem stateset : Statement .stateset := ⟨_, rfl, opField_append _ _⟩
theorem pwmload (m : Word) : Statement (.pwmload m) := ⟨_, rfl, opField_append _ _⟩
theorem onoff (p : Word) : Statement (.onoff p) := ⟨_, rfl, opField_append _ _⟩
theorem showA : Statement .showA := ⟨_, rfl, opField_append _ _⟩
theorem showB : Statement .showB := ⟨_, rfl, opField_append _ _⟩
theorem showC : Statement .showC := ⟨_, rfl, opField_append _ _⟩
theorem init : Statement .init := ⟨_, rfl, opField_append _ _⟩
theorem run (n : Word) : Statement (.run n) := ⟨_, rfl, opField_append _ _⟩
theorem wcmdStore : Statement .wcmdStore := rfl
theorem wcmdLatch : Statement .wcmdLatch := rfl
theorem wcmdOnoff : Statement .wcmdOnoff := rfl
theorem wcmdState1 : Statement .wcmdState1 := rfl
theorem wcmdState2 : Statement .wcmdState2 := rfl

end Sys2Proof.Laws.Level
end

