-- ==== Sys2Proof/Laws/Step.lean ====
section
/-! SUPPORT. All a step can do, once: every statement about a next state starts from `step_cases`. -/

namespace Sys2Proof.Machine

/-- The step of a busy CORE is the move of its top record. -/
theorem step_busy {s : State} {r : Record} {rest : List Record} (hr : s.host.reset = false)
    (hl : s.params.legal = true) (hk : s.stack = r :: rest) : step s = busyCycle s r rest := by
  simp [step, cycle, hr, hl, hk]

/-- The step of an idle CORE. -/
theorem step_idle {s : State} (hr : s.host.reset = false) (hl : s.params.legal = true) (hk : s.stack = []) :
    step s = idleCycle s := by
  simp [step, cycle, hr, hl, hk]

/-- The step of a busy CORE, given the move. -/
theorem step_move {s : State} {r : Record} {rest : List Record} {m : Move} (hr : s.host.reset = false)
    (hl : s.params.legal = true) (hk : s.stack = r :: rest) (hm : moveRecord s.params r = .next m) :
    step s = .next (s.clearOffer.applyMove m rest) := by
  rw [step_busy hr hl hk, busyCycle, hm]

/-- What a step that has a next state did: reset, a move of the top record, nothing, or taking a request. -/
theorem step_cases {s t : State} (h : step s = .next t) :
    (s.host.reset = true ∧ t = s.doReset) ∨
    (s.host.reset = false ∧ s.params.legal = true ∧
      ((∃ r rest m, s.stack = r :: rest ∧ moveRecord s.params r = .next m ∧ t = s.clearOffer.applyMove m rest) ∨
       (s.stack = [] ∧ s.params.bootMode = .autorun ∧ t = s.clearOffer) ∨
       (s.stack = [] ∧ s.params.bootMode = .hosted ∧ s.nextRequest = none ∧ t = s) ∨
       (s.stack = [] ∧ s.params.bootMode = .hosted ∧ ∃ q u, s.nextRequest = some (q, u) ∧
         ∃ i, decode s.params.cntW q = .ok i ∧ exec i u = .next t))) := by
  unfold step cycle at h
  split at h
  · next hr => exact .inl ⟨hr, by simpa using h.symm⟩
  next hr =>
  split at h
  swap
  · cases h
  next hl =>
  refine .inr ⟨by simpa using hr, hl, ?_⟩
  split at h
  · next hk =>
    unfold idleCycle at h
    split at h
    · next hm => exact .inr (.inl ⟨hk, hm, by simpa using h.symm⟩)
    next hm =>
    split at h
    · next hq => exact .inr (.inr (.inl ⟨hk, hm, hq, by simpa using h.symm⟩))
    next q u hq =>
    refine .inr (.inr (.inr ⟨hk, hm, q, u, hq, ?_⟩))
    split at h
    · next i hi => exact ⟨i, hi, h⟩
    · cases h
  · next r rest hk =>
    unfold busyCycle at h
    split at h
    · next m hm => exact .inl ⟨r, rest, m, hk, hm, by simpa using h.symm⟩
    · cases h
    · cases h

end Sys2Proof.Machine
end

