-- ==== Sys2Proof/Laws/Runs.lean ====
section
/-! SUPPORT. Runs one after another, and a run of one move. -/

namespace Sys2Proof.Machine

theorem RunsTo.refl (s : State) : RunsTo 0 s s := rfl

theorem RunsTo.trans {n m : Nat} {s t u : State} (h : RunsTo n s t) (h' : RunsTo m t u) : RunsTo (n + m) s u := by
  induction n generalizing s with
  | zero => cases h; simpa using h'
  | succ n ih =>
    obtain ⟨hb, v, hv, hr⟩ := h
    rw [Nat.succ_add]
    exact ⟨hb, v, hv, ih hr⟩

/-- One move of the top record, as a run. -/
theorem RunsTo.move {s : State} {r : Record} {rest : List Record} {m : Move} (hr : s.host.reset = false)
    (hl : s.params.legal = true) (hk : s.stack = r :: rest) (hm : moveRecord s.params r = .next m) :
    RunsTo 1 s (s.clearOffer.applyMove m rest) :=
  ⟨by simp [State.busy, hk], _, step_move hr hl hk hm, rfl⟩

end Sys2Proof.Machine
end

