-- ==== Sys2Proof/Laws/Trace.lean ====
section
/-! SUPPORT. How the functions on traces behave on concatenation and repetition. -/

namespace Sys2Proof.Machine

theorem times_length (t : List Event) (n : Nat) : (times t n).length = n * t.length := by
  induction n with
  | zero => simp [times]
  | succ n ih => simp [times, ih, Nat.succ_mul, Nat.add_comm]

theorem times_add (t : List Event) (n m : Nat) : times t (n + m) = times t n ++ times t m := by
  induction n with
  | zero => simp [times]
  | succ n ih => simp [times, Nat.succ_add, ih]

theorem waits_append (t u : List Event) : waits (t ++ u) = waits t + waits u := List.countP_append

theorem waits_times (t : List Event) (n : Nat) : waits (times t n) = n * waits t := by
  induction n with
  | zero => simp [times, waits]
  | succ n ih => rw [times, waits_append, ih, Nat.succ_mul, Nat.add_comm]

theorem writes_append (p : Line) (v : Level) (t u : List Event) :
    writes p v (t ++ u) = writes p v t + writes p v u := List.countP_append

theorem writes_times (p : Line) (v : Level) (t : List Event) (n : Nat) :
    writes p v (times t n) = n * writes p v t := by
  induction n with
  | zero => simp [times, writes]
  | succ n ih => rw [times, writes_append, ih, Nat.succ_mul, Nat.add_comm]

theorem pinsAfter_append (q : Pins) (t u : List Event) : pinsAfter q (t ++ u) = pinsAfter (pinsAfter q t) u :=
  List.foldl_append

theorem seeAll_append (v : WireView) (t u : List Event) : v.seeAll (t ++ u) = (v.seeAll t).seeAll u :=
  List.foldl_append

@[simp] theorem bcastBits_eq (w : Word) : bcastBits w = wordBits w ++ wordBits w := by
  simp [bcastBits, List.replicate]

theorem chainSeeAll_append (c : Chain) (l m : List WireItem) : c.seeAll (l ++ m) = (c.seeAll l).seeAll m :=
  List.foldl_append

/-- A frame leaves a chain in step only by ending a State-Setting Sequence or by keeping it there. -/
theorem syncFrame_inStep {s : Sync} {bits : List Level} {k : Nat} (h : s.frame bits k = .inStep) :
    (k = 15 ∧ s = .half ∧ bits = bcastBits Config.ssd2) ∨
      (s = .inStep ∧ keepsStep k = true ∧ bits.length % Config.wordW = 0) := by
  unfold Sync.frame at h
  split at h
  · cases h
  split at h
  · next _ hc => exact .inl hc
  split at h
  · next _ _ hc => exact .inr hc
  · cases h

/-- A frame leaves the sequence half done only by ending its first pair. -/
theorem syncFrame_half {s : Sync} {bits : List Level} {k : Nat} (h : s.frame bits k = .half) :
    k = 13 ∧ (bcastBits Config.ssd1).isSuffixOf bits = true := by
  unfold Sync.frame at h
  split at h
  · next hc => exact hc
  split at h
  · cases h
  split at h <;> cases h

/-- The stages are known only where the chain is in step and full. -/
theorem content_isSome_iff (c : Chain) :
    c.content.isSome = true ↔ c.sync = .inStep ∧ Config.nIcs * Config.wordW ≤ c.known.length := by
  simp only [Chain.content]
  split <;> simp_all

end Sys2Proof.Machine
end

