-- ==== Sys2Proof/Tests/Slice0.lean ====
section
/-! SUPPORT. The model's own tests. Expected results are from spec/: 95_test_vectors.md (V-DEC, V-SER, V-STEP, V-FRAME,
V-PWM), the tables of 30_encoding.md and the stepping rules R86, R104, R121. The witnesses at the end meet the
hypotheses of the statements. -/

namespace Sys2Proof.Tests

open Sys2Proof.Machine
open Host (Outcome)

/-- A HOSTED CORE with the example patterns of 95_test_vectors.md V-DISP. -/
def params : Params := ⟨1#16, 16, .hosted, ⟨0x1234#16, 0x00FF#16, 0x8001#16⟩⟩

/-- A CORE with these pins and this stack and nothing given. -/
def coreWith (q : Pins) (k : List Record) : State := ⟨q, k, [], params, HostPort.quiet⟩

/-- The idle CORE. -/
def idle : State := coreWith Pins.low []

/-- The idle CORE with CNT_W = 8. -/
def narrow : State := { idle with params := { params with cntW := 8 } }

/-- The CORE just after reset in AUTORUN mode. -/
def auto : State := State.resetOf { params with bootMode := .autorun } HostPort.quiet

/-- `s` with a request on the command interface. -/
def offered (s : State) (q : Request) : State := { s with host := { s.host with offer := some q } }

/-- `s` with host lines still to give. -/
def withLines (s : State) (l : List Request) : State := { s with host := { s.host with program := l } }

/-- The outcome is a next state with the property. -/
def nextIs (o : Outcome State Fault Refusal) (p : State → Bool) : Bool :=
  match o with
  | .next t => p t
  | .fault _ => false
  | .refused _ => false

/-- The outcome is this refusal. -/
def refusedIs (o : Outcome State Fault Refusal) (x : Refusal) : Bool :=
  match o with
  | .next _ => false
  | .fault _ => false
  | .refused y => decide (y = x)

/-- Pins written as in 95_test_vectors.md: (DATA, CLOCK, TE, PWMCLK). -/
def levels (d c t p : Nat) : Pins := ⟨d == 1, c == 1, t == 1, p == 1⟩

/-! ### Well-formedness: an ill-formed term for each check -/

theorem test_wf_frame_refuses : (Instr.frame 16#16).wf 4 = false ∧ (Instr.frame 15#16).wf 4 = true := by decide
theorem test_wf_pwmclk_refuses : (Instr.pwmclk 0x100#16).wf 8 = false ∧ (Instr.pwmclk 0xFF#16).wf 8 = true := by decide

/-! ### Decoding: one word for each constructor, from 30_encoding.md R72 and R66 -/

theorem test_decode_ser : decodeTableWord 24 0b00001100100010000000 = some (.ser 0xC880#16) := by decide
theorem test_decode_bcast : decodeTableWord 24 0b00011100100010000000 = some (.bcast 0xC880#16) := by decide
theorem test_decode_frame : decodeTableWord 24 0b00100000000000001101 = some (.frame 13#16) := by decide
theorem test_decode_pwmclk : decodeTableWord 24 0b00111111111111111111 = some (.pwmclk 65535#16) := by decide
theorem test_decode_delay : decodeTableWord 24 0b01000000000001100100 = some (.delay 100#16) := by decide
theorem test_decode_stateset : decodeTableWord 24 0b01010000000000000000 = some .stateset := by decide
theorem test_decode_pwmload : decodeTableWord 24 0b01100111111111111111 = some (.pwmload 0x7FFF#16) := by decide
theorem test_decode_onoff : decodeTableWord 24 0b01110001001000110100 = some (.onoff 0x1234#16) := by decide
theorem test_decode_showA : decodeTableWord 24 0b10000000000000000000 = some .showA := by decide
theorem test_decode_showB : decodeTableWord 24 0b10000000000000000001 = some .showB := by decide
theorem test_decode_showC : decodeTableWord 24 0b10000000000000000010 = some .showC := by decide
theorem test_decode_init : decodeTableWord 24 0b10010000000000000000 = some .init := by decide
theorem test_decode_run : decodeTableWord 24 0b10100000000000000010 = some (.run 2#16) := by decide
theorem test_decode_wcmdStore : decodeTableWord 16 0 = some .wcmdStore := by decide
theorem test_decode_wcmdLatch : decodeTableWord 16 2 = some .wcmdLatch := by decide
theorem test_decode_wcmdOnoff : decodeTableWord 16 7 = some .wcmdOnoff := by decide
theorem test_decode_wcmdState1 : decodeTableWord 16 13 = some .wcmdState1 := by decide
theorem test_decode_wcmdState2 : decodeTableWord 16 15 = some .wcmdState2 := by decide

/-- The refused words of V-DEC, and pulse counts that are no wire command (R70). -/
theorem test_decode_refuses :
    decode 16 (.command 0x50001#20) = .error .argNotZero ∧ decode 16 (.command 0x80003#20) = .error .noSuchCharacter ∧
    decode 16 (.command 0x80004#20) = .error .noSuchCharacter ∧ decode 16 (.command 0x90001#20) = .error .argNotZero ∧
    decode 16 (.command 0xB0000#20) = .error .reservedOp ∧ decode 16 (.command 0xFFFFF#20) = .error .reservedOp ∧
    decode 4 (.command 0x20010#20) = .error .countTooWide ∧ decode 16 (.wire 1#16) = .error .unusedPulseCount := by
  decide

/-! ### Taking each instruction from idle: the record of 10_state.md R16 -/

theorem test_take_ser : nextIs (exec (.ser 0xC880#16) idle) (fun t => t.stack = [.aSer 0xC880#16 0 0]) := by decide
theorem test_take_bcast : nextIs (exec (.bcast 1#16) idle) (fun t => t.stack = [.aBcast 1#16 0]) := by decide
theorem test_take_frame : nextIs (exec (.frame 2#16) idle) (fun t => t.stack = [.aFrame 2#16 0]) := by decide
theorem test_take_pwmclk : nextIs (exec (.pwmclk 3#16) idle) (fun t => t.stack = [.aPwm 3#16 0]) := by decide
theorem test_take_delay : nextIs (exec (.delay 0#16) idle) (fun t => t.stack = [.aDelay 0#16]) := by decide
theorem test_take_stateset : nextIs (exec .stateset idle) (fun t => t.stack = [.aStateset 0]) := by decide
theorem test_take_pwmload : nextIs (exec (.pwmload 7#16) idle) (fun t => t.stack = [.aPwmload 7#16 0 0]) := by decide
theorem test_take_onoff : nextIs (exec (.onoff 7#16) idle) (fun t => t.stack = [.aOnoff 7#16 0]) := by decide
theorem test_take_showA : nextIs (exec .showA idle) (fun t => t.stack = [.aShow .chA none 0]) := by decide
theorem test_take_showB : nextIs (exec .showB idle) (fun t => t.stack = [.aShow .chB none 0]) := by decide
theorem test_take_showC : nextIs (exec .showC idle) (fun t => t.stack = [.aShow .chC none 0]) := by decide
theorem test_take_init : nextIs (exec .init idle) (fun t => t.stack = [.aInit 0]) := by decide
theorem test_take_run : nextIs (exec (.run 2#16) idle) (fun t => t.stack = [.aRun 2#16 0#16 .chA 0]) := by decide
theorem test_take_wcmdStore : nextIs (exec .wcmdStore idle) (fun t => t.stack = [.aFrame 0#16 0]) := by decide
theorem test_take_wcmdLatch : nextIs (exec .wcmdLatch idle) (fun t => t.stack = [.aFrame 2#16 0]) := by decide
theorem test_take_wcmdOnoff : nextIs (exec .wcmdOnoff idle) (fun t => t.stack = [.aFrame 7#16 0]) := by decide
theorem test_take_wcmdState1 : nextIs (exec .wcmdState1 idle) (fun t => t.stack = [.aFrame 13#16 0]) := by decide
theorem test_take_wcmdState2 : nextIs (exec .wcmdState2 idle) (fun t => t.stack = [.aFrame 15#16 0]) := by decide

/-! ### Single steps -/

/-- R86: bit 7 of 0xC880 is 1 after seven shifts; DATA rises and CLOCK stays. -/
theorem test_step_ser_bit :
    nextIs (step (coreWith Pins.low [.aSer 0x0191#16 7 0]))
      (fun t => t.stack = [.aSer 0x0191#16 7 1] && t.pins = levels 1 0 0 0 && t.trace = [.set .data true]) := by decide

/-- R86: the end of the last cell shifts a zero in and counts to 16. -/
theorem test_step_ser_last_cell :
    nextIs (step (coreWith (levels 1 0 0 0) [.aSer 1#16 15 4]))
      (fun t => t.stack = [.aSer 0#16 16 0] && t.trace = [.wait 1#16]) := by decide

/-- R86: after sixteen cells, one `Set(DATA, 0)` and the record is gone. -/
theorem test_step_ser_end :
    nextIs (step (coreWith (levels 1 0 0 0) [.aSer 0#16 16 0]))
      (fun t => t.stack = [] && t.pins = Pins.low && t.trace = [.set .data false]) := by decide

/-- V-STEP: `aBCAST(P, 1)` pushes `aSER(P, 0, 0)` and becomes `aBCAST(P, 2)`. -/
theorem test_step_bcast :
    nextIs (step (coreWith Pins.low [.aBcast 5#16 1]))
      (fun t => t.stack = [.aSer 5#16 0 0, .aBcast 5#16 2] && t.trace = []) := by decide

/-- V-STEP, step 5 of FRAME 2: `C0`, one pulse fewer. -/
theorem test_step_frame_pulse :
    nextIs (step (coreWith (levels 0 1 1 0) [.aFrame 2#16 4]))
      (fun t => t.stack = [.aFrame 1#16 1] && t.pins = levels 0 0 1 0 && t.trace = [.set .clock false]) := by decide

/-- V-STEP, step 10: with no pulse left, the wait leads to the fall of TE. FRAME 0 takes it too (V-FRAME 1). -/
theorem test_step_frame_zero :
    nextIs (step (coreWith (levels 0 0 1 0) [.aFrame 0#16 1]))
      (fun t => t.stack = [.aFrame 0#16 5] && t.trace = [.wait 1#16]) := by decide

/-- V-STEP: `PWMCLK 0` is one silent step. -/
theorem test_step_pwmclk_zero :
    nextIs (step (coreWith Pins.low [.aPwm 0#16 0])) (fun t => t.stack = [] && t.trace = []) := by decide

/-- R86: the falling edge ends a cycle. -/
theorem test_step_pwmclk_cycle :
    nextIs (step (coreWith (levels 0 0 0 1) [.aPwm 3#16 1]))
      (fun t => t.stack = [.aPwm 2#16 0] && t.pins = Pins.low && t.trace = [.set .pwmclk false]) := by decide

/-- V-DELAY: `DELAY 0` emits `Wait(0)`. -/
theorem test_step_delay_zero :
    nextIs (step (coreWith Pins.low [.aDelay 0#16])) (fun t => t.stack = [] && t.trace = [.wait 0#16]) := by decide

/-- R104: the second word of the State-Setting Word Pair. -/
theorem test_step_stateset :
    nextIs (step (coreWith Pins.low [.aStateset 2])) (fun t => t.stack = [.aBcast 0xC880#16 0, .aStateset 3]) := by decide

/-- R104: after the sixteenth channel the script leaves its loop. -/
theorem test_step_pwmload_leaves_loop :
    nextIs (step (coreWith Pins.low [.aPwmload 7#16 16 0])) (fun t => t.stack = [.aPwmload 7#16 16 2]) := by decide

/-- R104: a frame of 0 after each broadcast, and the channel is counted. -/
theorem test_step_pwmload_counts :
    nextIs (step (coreWith Pins.low [.aPwmload 7#16 15 1])) (fun t => t.stack = [.aFrame 0#16 0, .aPwmload 7#16 16 0]) := by
  decide

/-- R104: a frame of 7 after the mask. -/
theorem test_step_onoff :
    nextIs (step (coreWith Pins.low [.aOnoff 7#16 1])) (fun t => t.stack = [.aFrame 7#16 0, .aOnoff 7#16 2]) := by decide

/-- R121: the lookup, with the pattern of C. -/
theorem test_step_show_lookup :
    nextIs (step (coreWith Pins.low [.aShow .chC none 0])) (fun t => t.stack = [.aShow .chC (some 0x8001#16) 1]) := by
  decide

/-- R121: the PWM clock runs for 0xFFFF cycles. -/
theorem test_step_show_pwm :
    nextIs (step (coreWith Pins.low [.aShow .chA (some 1#16) 3]))
      (fun t => t.stack = [.aPwm 0xFFFF#16 0, .aShow .chA (some 1#16) 4]) := by decide

/-- R121: INIT loads 0x7FFF. -/
theorem test_step_init :
    nextIs (step (coreWith Pins.low [.aInit 1])) (fun t => t.stack = [.aPwmload 0x7FFF#16 0 0, .aInit 2]) := by decide

/-- R121: a bounded RUN ends at its bound. -/
theorem test_step_run_bound :
    nextIs (step (coreWith Pins.low [.aRun 2#16 2#16 .chC 1])) (fun t => t.stack = []) := by decide

/-- R121: after C comes A, and `RUN 0` counts nothing. -/
theorem test_step_run_cycle :
    nextIs (step (coreWith Pins.low [.aRun 0#16 0#16 .chC 2])) (fun t => t.stack = [.aRun 0#16 0#16 .chA 1]) := by decide

/-! ### The interface -/

/-- A presented word is taken by the very next step, from reset (log entry 5). -/
theorem test_present_command :
    nextIs (step (State.reset.withFetchWord 24 0xA0005)) (fun t => t.stack = [.aRun 5#16 0#16 .chA 0]) := by decide

theorem test_present_wire :
    nextIs (step (State.reset.withFetchWord 16 13)) (fun t => t.stack = [.aFrame 13#16 0]) := by decide

/-- R154: for a refused word there is no step. -/
theorem test_refused_word :
    refusedIs (step (offered idle (.command 0xB0000#20))) (.refusedWord .reservedOp) = true := by decide

/-- P5: after a refused word the host goes on, and its next line is taken. -/
theorem test_refused_word_withdrawn :
    nextIs (step (withLines idle [.command 0xB0000#20, .command 0xA0002#20]).withdraw)
      (fun t => t.stack = [.aRun 2#16 0#16 .chA 0] && t.host.program = []) = true := by decide

/-- R155: a command offered while BUSY is lost. -/
theorem test_busy_offer :
    nextIs (step (offered (coreWith Pins.low [.aDelay 5#16]) (.command 0x20000#20)))
      (fun t => t.stack = [] && t.host = HostPort.quiet && t.trace = [.wait 5#16]) := by decide

/-- R171: reset in the middle of a frame. -/
theorem test_reset_in_operation :
    nextIs (step { coreWith (levels 0 1 1 0) [.aFrame 2#16 3] with trace := [.set .te true], host := ⟨true, none, []⟩ })
      (fun t => t = idle) := by decide

/-- R75: written forms. -/
theorem test_written :
    written (.bcast 0xC880#16) = some ['B', 'C', 'A', 'S', 'T', ' ', '0', 'x', 'C', '8', '8', '0'] ∧
    written (.frame 13#16) = some ['F', 'R', 'A', 'M', 'E', ' ', '1', '3'] := by decide

theorem test_readLine :
    readLine 16 [' ', 'S', 'H', 'O', 'W', ' ', 'B', ' ', ';', 'x'] = .operation .showB ∧
    readLine 16 ['S', 'E', 'R', ' ', '2', '5', '5'] = .operation (.ser 0xFF#16) ∧
    readLine 16 ['R', 'U', 'N', ' ', '0', 'x', '0', '0', '0', '2'] = .operation (.run 2#16) ∧
    readLine 16 [';', 'x'] = .blank ∧
    readProgram 16 [[], ['I', 'N', 'I', 'T'], [';', 'x']] = some [encode .init] ∧ readLine 16 ['I', 'N', 'I', 'T', ' ', '1'] = .malformed := by decide

/-- V-FRAME 3 and R139: the trace of FRAME 2 and what it delivers. -/
theorem test_trace_frame :
    traceFrame 1#16 2#16 = [.set .te true, .wait 1#16, .set .clock true, .wait 1#16, .set .clock false, .wait 1#16,
      .set .clock true, .wait 1#16, .set .clock false, .wait 1#16, .set .te false] ∧
    wireDecode (traceFrame 1#16 2#16) Pins.low = ⟨[.cmd 2], 0, Pins.low⟩ := by decide

/-- V-SER 5: the bits of 0xC880 in time order. -/
theorem test_decode_trace_ser :
    (wireDecode (traceSer 1#16 0xC880#16) Pins.low).items =
      [.bits ([0, 0, 0, 0, 0, 0, 0, 1, 0, 0, 0, 1, 0, 0, 1, 1].map (· == 1))] := by decide

/-! ### Witnesses: the hypotheses of each statement can be met -/

theorem witness_Ready : idle.Ready := ⟨by decide, by decide, by decide, by decide, by decide⟩
theorem witness_countFits : countFits idle.params.cntW 65535#16 ∧ countFits narrow.params.cntW 255#16 := by decide
theorem witness_show : idle.params.cntW = 16 ∧ (3#16 : Word) ≠ 0#16 := by decide
theorem witness_DecodeOfEncode : (Instr.frame 15#16).wf 4 = true ∧ (Instr.pwmclk 65535#16).wf 16 = true := by decide
theorem witness_EncodeOfDecode : decode 16 (.command 0x80002#20) = .ok .showC ∧ decode 16 (.wire 15#16) = .ok .wcmdState2 := by
  decide
theorem witness_ReadOfWritten : (Instr.run 65535#16).wf 16 = true ∧
    written (.run 65535#16) = some ['R', 'U', 'N', ' ', '6', '5', '5', '3', '5'] := by decide

/-- Deep in `RUN 0` (V-STEP): the deepest stack, in the seventh cell of a pattern. -/
def deep : State := coreWith (levels 1 1 0 0)
  [.aSer 0x0191#16 7 2, .aBcast 0x1234#16 1, .aOnoff 0x1234#16 1, .aShow .chA (some 0x1234#16) 2, .aRun 0#16 0#16 .chA 2]

theorem witness_Good_deep : deep.Good := ⟨by decide, by decide, by decide, by decide, by decide⟩
theorem witness_Good_idle : idle.Good := ⟨by decide, by decide, by decide, by decide, by decide⟩
theorem witness_Good_auto : auto.Good ∧ auto.params.bootMode = .autorun :=
  ⟨⟨by decide, by decide, by decide, by decide, by decide⟩, by decide⟩
theorem witness_GoodIsKept : deep.Good ∧ nextIs (step deep) (fun t => t.stack.length = 5) = true :=
  ⟨witness_Good_deep, by decide⟩
theorem witness_TraceAgreement : idle.TraceOk ∧ nextIs (step (offered idle (.command 0x20000#20))) (fun _ => true) = true :=
  ⟨rfl, by decide⟩
theorem witness_NoStepFaults_busy : deep.Good ∧ deep.busy = true := ⟨witness_Good_deep, by decide⟩
theorem witness_NoStepFaults_idle : (offered idle (.wire 7#16)).Good ∧ idle.params.cntW = 16 ∧
    (offered idle (.wire 7#16)).nextRequest = some (.wire 7#16, idle) ∧ decode 16 (.wire 7#16) = .ok .wcmdOnoff ∧
    idle.nextRequest = none :=
  ⟨⟨by decide, by decide, by decide, by decide, by decide⟩, by decide, by decide, by decide, by decide⟩

/-- The last step of a frame: it leaves the CORE idle. -/
def lastOfFrame : State := coreWith (levels 0 0 1 0) [.aFrame 0#16 5]

theorem witness_IdleLinesAreLow : lastOfFrame.Good ∧ nextIs (step lastOfFrame) (fun t => !t.busy) = true :=
  ⟨⟨by decide, by decide, by decide, by decide, by decide⟩, by decide⟩

theorem witness_WireRules_data : (coreWith Pins.low [.aSer 1#16 0 0]).Good ∧
    nextIs (step (coreWith Pins.low [.aSer 1#16 0 0])) (fun t => t.trace = [.set .data true]) = true :=
  ⟨⟨by decide, by decide, by decide, by decide, by decide⟩, by decide⟩
theorem witness_WireRules_te : lastOfFrame.Good ∧
    nextIs (step lastOfFrame) (fun t => t.trace = [.set .te false]) = true :=
  ⟨⟨by decide, by decide, by decide, by decide, by decide⟩, by decide⟩
theorem witness_WireRules_clock : (coreWith (levels 0 0 1 0) [.aFrame 1#16 2]).Good ∧
    nextIs (step (coreWith (levels 0 0 1 0) [.aFrame 1#16 2])) (fun t => t.trace = [.set .clock true]) = true :=
  ⟨⟨by decide, by decide, by decide, by decide, by decide⟩, by decide⟩
theorem witness_WireRules_pwmclk : (coreWith (levels 0 0 0 1) [.aPwm 1#16 1]).Good ∧
    nextIs (step (coreWith (levels 0 0 0 1) [.aPwm 1#16 1])) (fun t => t.trace = [.set .pwmclk false]) = true :=
  ⟨⟨by decide, by decide, by decide, by decide, by decide⟩, by decide⟩

theorem witness_ResetWins : ({ deep with host := ⟨true, some (.command 0x20000#20), []⟩ } : State).host.reset = true := by
  decide
theorem witness_ResetIsGood : params.legal = true ∧ Params.default.legal = true := by decide
theorem witness_FirstEventAfterReset : Params.default.legal = true ∧ Params.default.bootMode = .autorun ∧
    HostPort.quiet.reset = false := by decide
theorem witness_TakingPushesTheRecord : idle.params.bootMode = .hosted ∧ idle.stack = [] ∧
    (Instr.frame 65535#16).wf idle.params.cntW = true ∧ (needsShow .showA = true ∧ idle.params.canShow = true) := by decide
theorem witness_StepRuns_offer : (offered idle (.command 0xA0002#20)).host.reset = false ∧
    (offered idle (.command 0xA0002#20)).params.legal = true ∧
    (offered idle (.command 0xA0002#20)).params.bootMode = .hosted ∧ (offered idle (.command 0xA0002#20)).stack = [] ∧
    decode 16 (.command 0xA0002#20) = .ok (.run 2#16) ∧
    (offered idle (.command 0xA0002#20)).host.offer = some (.command 0xA0002#20) := by decide
theorem witness_StepRuns_line : decode 16 (.wire 7#16) = .ok .wcmdOnoff ∧
    (withLines idle [.wire 7#16]).host.offer = none ∧ (withLines idle [.wire 7#16]).host.program = .wire 7#16 :: [] := by decide
theorem witness_PresentedWordRuns : decodeTableWord 24 0x80002 = some .showC ∧ State.reset.params.cntW = 16 := by decide
theorem witness_RefusedWord : decode 16 (.command 0x50001#20) = .error .argNotZero ∧
    (offered idle (.command 0x50001#20)).host.offer = some (.command 0x50001#20) ∧
    (withLines idle [.command 0x50001#20]).host.program = .command 0x50001#20 :: [] := by decide
theorem witness_NotTakenWhileBusy : deep.busy = true ∧ deep.host.reset = false ∧
    nextIs (step deep) (fun _ => true) = true := by decide
theorem witness_IdleCoreWaits : idle.host.reset = false ∧ idle.params.legal = true ∧ idle.params.bootMode = .hosted ∧
    idle.stack = [] ∧ idle.host.offer = none ∧ idle.host.program = [] := by decide
theorem witness_NarrowCounts_exec : needsShow .showB = true ∧ narrow.params.cntW < 16 ∧
    refusedIs (exec .showB narrow) .countTooNarrow = true := by decide
theorem witness_NarrowCounts_config :
    refusedIs (step { idle with params := { params with cntW := 3 } }) .illegalConfig = true ∧
    refusedIs (step { idle with params := { params with cntW := 17 } }) .illegalConfig = true ∧
    refusedIs (step { auto with params := { auto.params with cntW := 15 } }) .illegalConfig = true ∧
    nextIs (step { idle with params := { params with cntW := 4 } }) (fun _ => true) = true := by decide
theorem witness_NarrowCounts_good : (offered narrow (.command 0x80000#20)).Good ∧
    refusedIs (step (offered narrow (.command 0x80000#20))) .countTooNarrow = true :=
  ⟨⟨by decide, by decide, by decide, by decide, by decide⟩, by decide⟩
theorem witness_NarrowCounts_word : (offered idle (.command 0x80003#20)).Good ∧
    refusedIs (step (offered idle (.command 0x80003#20))) (.refusedWord .noSuchCharacter) = true :=
  ⟨⟨by decide, by decide, by decide, by decide, by decide⟩, by decide⟩
theorem witness_OneThingAStep_emit : deep.host.reset = false ∧ deep.stack ≠ [] ∧
    nextIs (step deep) (fun t => t.trace = [.wait 1#16]) = true := by decide
theorem witness_OneThingAStep_push : nextIs (step (coreWith Pins.low [.aInit 0])) (fun t => t.stack.length = 2) = true := by decide
theorem witness_OneThingAStep_pop : nextIs (step (coreWith Pins.low [.aInit 2])) (fun t => t.stack = []) = true := by decide
theorem witness_OneThingAStep_own : nextIs (step (coreWith Pins.low [.aRun 1#16 0#16 .chA 2]))
    (fun t => t.stack = [.aRun 1#16 1#16 .chB 1]) = true := by decide
theorem witness_WhoWritesWhichPin : deep.host.reset = false ∧ nextIs (step deep) (fun t => t.pins = deep.pins) = true := by
  decide
theorem witness_ParametersNeverChange : nextIs (step deep) (fun t => t.params = params) = true := by decide
theorem witness_TableReadOnlyByShow :
    (∀ (c : Character) (q : Option Word) (rest : List Record), deep.stack ≠ .aShow c q 0 :: rest) ∧
    nextIs (step deep) (fun _ => true) = true :=
  ⟨by intro c q rest h; simp [deep, coreWith] at h, by decide⟩
theorem witness_ShowLooksUp : (coreWith Pins.low [.aShow .chB none 0]).host.reset = false ∧
    (coreWith Pins.low [.aShow .chB none 0]).params.legal = true ∧ (coreWith Pins.low [.aShow .chB none 0]).params.cntW = 16 ∧
    (coreWith Pins.low [.aShow .chB none 0]).stack = .aShow .chB none 0 :: [] := by decide
theorem witness_RunZero : auto.Good ∧ auto.host.reset = false ∧ endsInRunZero auto.stack = true ∧
    deep.Good ∧ endsInRunZero deep.stack = true :=
  ⟨witness_Good_auto.1, by decide, by decide, witness_Good_deep, by decide⟩
theorem witness_Autorun : auto.params.legal = true ∧ auto.params.bootMode = .autorun ∧ auto.host.reset = false := by decide
/-- A chain in step of which no bit is known. -/
def stepped : Chain := ⟨[], [], .inStep⟩

theorem witness_BroadcastFillsTheChain : pinsAfter Pins.low (traceFrame 1#16 2#16) = Pins.low ∧
    (chainAfter stepped Pins.low (traceFrame 1#16 2#16)).sync = .inStep := by decide
theorem witness_ChainIsKnown : pinsAfter Pins.low (traceFrame 1#16 7#16) = Pins.low ∧
    (chainAfter stepped Pins.low (traceFrame 1#16 7#16)).sync = .inStep ∧
    (chainAfter stepped Pins.low (traceFrame 1#16 7#16)).bits.length % 16 = 0 ∧
    (5#16 : Word) ≠ 0#16 ∧ (5#16 : Word) ≠ 2#16 ∧ (5#16 : Word) ≠ 7#16 := by decide
theorem witness_StateSetting : pinsAfter Pins.low (traceFrame 1#16 5#16) = Pins.low ∧
    (chainAfter stepped Pins.low (traceFrame 1#16 5#16)).sync = .lost := by decide
/-- R132 and R101 corner case d: a frame of 7 or of 0 pulses keeps the word; R70: one of 5 leaves nothing known. -/
theorem test_chain_frames :
    (Chain.seeAll ⟨[true], [], .inStep⟩ [.cmd 7]).known = [true] ∧ (Chain.seeAll ⟨[true], [], .inStep⟩ [.cmd 0]).known = [true] ∧
    (Chain.seeAll ⟨[true], [], .inStep⟩ [.cmd 5]) = ⟨[], [], .lost⟩ := by decide
/-- R100, R187: the four items of the State-Setting Sequence bring a chain out of step back, also after other bits; with
the two pairs exchanged, or by a broadcast alone, they do not. -/
theorem test_chain_sync :
    (Chain.seeAll Chain.atReset [.bits [true], bcastItem 0x0000#16, .cmd 13, bcastItem 0xC880#16, .cmd 15]).sync = .inStep ∧
    (Chain.seeAll Chain.atReset [bcastItem 0xC880#16, .cmd 15, bcastItem 0x0000#16, .cmd 13]).sync = .half ∧
    (Chain.seeAll Chain.atReset [bcastItem 0x1234#16]).content = none := by decide
theorem witness_NothingKnownBefore :
    chain Pins.low (traceStateset 1#16 ++ traceBcast 1#16 0x1234#16) ≠ none := by decide +kernel
theorem witness_DecodeIgnores : (pinsAfter Pins.low [.set .te true]).get .te = true := by decide
theorem witness_ExpansionsAreExact : expansion params (.onoff 5#16) = some [.bcast 5#16, .frame 7#16] ∧
    (expansion params (.run 2#16)).isSome = true := by decide

end Sys2Proof.Tests
end

section
/-! SUPPORT. What every step keeps: the parameters, and the pin registers in agreement with the trace (10_state.md R10,
R26). -/

namespace Sys2Proof.Machine

/-- Taking a request off the interface touches the interface alone. -/
theorem nextRequest_keeps {s u : State} {q : Request} (h : s.nextRequest = some (q, u)) :
    u.pins = s.pins ∧ u.stack = s.stack ∧ u.trace = s.trace ∧ u.params = s.params := by
  obtain ⟨_, rfl⟩ | ⟨_, _, _, rfl⟩ := nextRequest_cases h <;> exact ⟨rfl, rfl, rfl, rfl⟩

/-- Taking an instruction touches the stack alone. -/
theorem exec_keeps {i : Instr} {s t : State} (h : exec i s = .next t) :
    t.pins = s.pins ∧ t.trace = s.trace ∧ t.params = s.params ∧ t.host = s.host := by
  obtain ⟨_, ⟨_, _, rfl⟩ | ⟨_, rfl⟩⟩ := exec_cases h <;> exact ⟨rfl, rfl, rfl, rfl⟩

/-- Emitting an event and clearing the command interface do not meet. -/
@[simp] theorem State.clearOffer_emitOption (s : State) (e : Option Event) :
    s.clearOffer.emitOption e = (s.emitOption e).clearOffer := by
  cases e <;> rfl

/-- The pins, the trace and the parameters after a step: those of reset, or those the step's one event, if it has one,
leaves (10_state.md R17). -/
theorem step_emits {s t : State} (h : step s = .next t) :
    t = s.doReset ∨ ∃ e : Option Event,
      t.pins = (s.emitOption e).pins ∧ t.trace = (s.emitOption e).trace ∧ t.params = s.params := by
  obtain ⟨_, rfl⟩ | ⟨_, _, ⟨r, rest, m, _, _, rfl⟩ | ⟨_, _, rfl⟩ | ⟨_, _, _, rfl⟩ |
    ⟨_, _, q, u, hq, i, _, hexec⟩⟩ := step_cases h
  case inl => exact .inl rfl
  case inr.inl =>
    exact .inr ⟨m.event, by simp, by simp, by simp⟩
  case inr.inr.inl => exact .inr ⟨none, rfl, rfl, rfl⟩
  case inr.inr.inr.inl => exact .inr ⟨none, rfl, rfl, rfl⟩
  case inr.inr.inr.inr =>
    obtain ⟨hpins, _, htrace, hparams⟩ := nextRequest_keeps hq
    obtain ⟨hpins', htrace', hparams', _⟩ := exec_keeps hexec
    exact .inr ⟨none, hpins'.trans hpins, htrace'.trans htrace, hparams'.trans hparams⟩

/-- The agreement of pins and trace speaks of these two fields only. -/
theorem State.TraceOk.congr {s t : State} (h : s.TraceOk) (hpins : t.pins = s.pins) (htrace : t.trace = s.trace) :
    t.TraceOk := by
  rw [State.TraceOk, hpins, htrace]
  exact h

theorem traceOk_resetOf (p : Params) (h : HostPort) : (State.resetOf p h).TraceOk := rfl

/-- Emitting an event keeps pins and trace in agreement. -/
theorem State.TraceOk.emitOption {s : State} (h : s.TraceOk) : ∀ e : Option Event, (s.emitOption e).TraceOk
  | none => h
  | some e => by
    change s.pins.after e = pinsAfter Pins.low (s.trace ++ [e])
    rw [pinsAfter_append, ← h]
    rfl

end Sys2Proof.Machine

namespace Sys2Proof.Proofs

open Sys2Proof.Machine

/-- Settles O48: reset starts both anew, and any other step emits at most one event to both. -/
theorem traceAgreementIsKept : Obligations.TraceAgreementIsKept := by
  intro s t hs hstep
  obtain rfl | ⟨e, hpins, htrace, _⟩ := step_emits hstep
  · exact traceOk_resetOf _ _
  · exact (hs.emitOption e).congr hpins htrace

/-- Settles O24: neither reset nor any other step writes a parameter. -/
theorem parametersNeverChange : Obligations.ParametersNeverChange := by
  intro s t hstep
  obtain rfl | ⟨_, _, _, hparams⟩ := step_emits hstep
  · exact State.doReset_params s
  · exact hparams

end Sys2Proof.Proofs
end

section
/-! SUPPORT. The shape of the control stack: a chain of calls has levels falling toward the top (10_state.md R15,
R16). -/

namespace Sys2Proof.Machine

/-- There are five levels (R16). -/
theorem Record.level_lt_five (r : Record) : r.level < 5 := by
  cases r <;> simp [Record.level]

/-- A script calls only records of a lower level (R16). -/
theorem Record.level_lt_of_calls {parent child : Record} (h : parent.calls child = true) :
    child.level < parent.level := by
  unfold Record.calls at h
  split at h <;> simp [Record.level] at h ⊢

/-- In a chain of calls each record has a lower level than the one just below it. -/
theorem isChain_level_of_callsOk {k : List Record} (h : callsOk k = true) :
    k.IsChain (fun r below => r.level < below.level) := by
  induction k using callsOk.induct with
  | case1 => exact .nil
  | case2 r => exact .singleton r
  | case3 child parent rest ih =>
    obtain ⟨hcall, hrest⟩ := Bool.and_eq_true_iff.mp h
    exact .cons_cons (Record.level_lt_of_calls hcall) (ih hrest)

/-- In a chain of calls each record has a lower level than every record below it. -/
theorem pairwise_level_of_callsOk {k : List Record} (h : callsOk k = true) :
    k.Pairwise (fun r below => r.level < below.level) := by
  have : IsTrans Record (fun r below => r.level < below.level) := ⟨fun _ _ _ => Nat.lt_trans⟩
  exact List.isChain_iff_pairwise.mp (isChain_level_of_callsOk h)

/-- A stack on which no level stands twice holds at most one record of each of the five levels. -/
theorem length_le_five_of_pairwise_level {k : List Record}
    (h : k.Pairwise (fun r below => r.level < below.level)) : k.length ≤ 5 := by
  have hnodup : (k.map Record.level).Nodup := (h.imp Nat.ne_of_lt).map _ fun _ _ => id
  have hsub : k.map Record.level ⊆ List.range 5 := by
    intro l hl
    obtain ⟨r, _, rfl⟩ := List.mem_map.mp hl
    exact List.mem_range.mpr r.level_lt_five
  simpa using (hnodup.subperm hsub).length_le

end Sys2Proof.Machine

namespace Sys2Proof.Proofs

open Sys2Proof.Machine

/-- Settles O50: five levels, and no level twice. -/
theorem stackIsAtMostFiveDeep : Obligations.StackIsAtMostFiveDeep := by
  intro s hs
  have hlevels := pairwise_level_of_callsOk hs.calls
  exact ⟨length_le_five_of_pairwise_level hlevels, hlevels⟩

end Sys2Proof.Proofs
end

section
/-! SUPPORT. Reset (10_state.md R30), and the way from it to the first event of AUTORUN. -/

namespace Sys2Proof.Machine

/-- A configuration that runs the display program from reset can express PWM_HOLD (42_display_program.md R115 corner
case d). -/
theorem canShow_of_legal_autorun {p : Params} (hlegal : p.legal = true) (hmode : p.bootMode = .autorun) :
    p.canShow = true := by
  simp_all [Params.legal, Params.canShow]

/-- The state after reset is good, in every legal configuration. -/
theorem good_resetOf {p : Params} (h : HostPort) (hlegal : p.legal = true) : (State.resetOf p h).Good := by
  cases hmode : p.bootMode with
  | hosted =>
    exact {
      legal := hlegal
      records := by simp [hmode, bootStack]
      calls := by simp [hmode, bootStack, callsOk]
      pins := by simp [hmode, bootStack, pinsOk]
      boot := by simp [hmode, bootOk] }
  | autorun =>
    have hshow := canShow_of_legal_autorun hlegal hmode
    exact {
      legal := hlegal
      records := by simp [hmode, bootStack, Record.ok, hshow]
      calls := by simp [hmode, bootStack, callsOk]
      pins := by simp [hmode, bootStack, pinsOk, Record.pinsOk]
      boot := by simp [hmode, bootStack, bootOk, endsInRunZero] }

/-- A silent push of the top record, as a run. -/
theorem RunsTo.push {s : State} {r r' child : Record} {rest : List Record} (hr : s.host.reset = false)
    (hl : s.params.legal = true) (hk : s.stack = r :: rest)
    (hm : moveRecord s.params r = .next (.push child r')) :
    RunsTo 1 s { s.clearOffer with stack := child :: r' :: rest } :=
  RunsTo.move hr hl hk hm

end Sys2Proof.Machine

namespace Sys2Proof.Proofs

open Sys2Proof.Machine

/-- Settles O11: RUN pushes INIT, INIT pushes STATESET, STATESET pushes BCAST SSD1, BCAST pushes SER SSD1, and the
first step of SER emits the event. -/
theorem firstEventAfterReset : Obligations.FirstEventAfterReset := by
  intro p h hlegal hmode hreset
  have hstack : (State.resetOf p h).stack = [.aRun 0#16 0#16 .chA 0] := by simp [hmode, bootStack]
  have hrun : moveRecord p (.aRun 0#16 0#16 .chA 0) = .next (.push (.aInit 0) (.aRun 0#16 0#16 .chA 1)) := by
    simp [moveRecord, moveRun, canShow_of_legal_autorun hlegal hmode]
  have toInit := RunsTo.push hreset hlegal hstack hrun
  have toStateset := toInit.trans (RunsTo.push hreset hlegal rfl rfl)
  have toBcast := toStateset.trans (RunsTo.push hreset hlegal rfl rfl)
  have toSer := toBcast.trans (RunsTo.push hreset hlegal rfl rfl)
  have toEvent := toSer.trans (RunsTo.move hreset hlegal rfl rfl)
  exact ⟨_, _, toEvent, rfl, by decide⟩

/-- Settles O8: the reset state and the constants, read off. -/
theorem stateAfterReset : Obligations.StateAfterReset := by
  refine ⟨fun p h => ⟨rfl, rfl, fun hmode => ?_, fun hmode => ?_⟩, by decide⟩
  · simp [busy_eq_true_iff, hmode, bootStack]
  · simp [busy_eq_false_iff, hmode, bootStack]

/-- Settles O10, the start of the two invariants of GoodIsKept and TraceAgreementIsKept. -/
theorem resetIsGood : Obligations.ResetIsGood :=
  ⟨good_resetOf _ (by decide), fun p h hlegal => ⟨good_resetOf h hlegal, traceOk_resetOf p h⟩⟩

/-- Settles O19. -/
theorem busyIsStackNotEmpty : Obligations.BusyIsStackNotEmpty := busy_eq_true_iff

/-- Settles O22: the written line and another line are the two rules of reading after a write. -/
theorem pinWriteChangesOneRegister : Obligations.PinWriteChangesOneRegister := by
  intro q p p' v
  split
  · next heq => rw [heq, Pins.get_set_same]
  · next hne => exact Pins.get_set_other q p p' v hne

end Sys2Proof.Proofs
end

section
/-! SUPPORT. What the serializer puts on the wire: a bit cell, a word and a broadcast deliver their bits to `Decode`
(43_wire_commands.md R139), and the bits reach the chain (20_memory.md R42). -/

namespace Sys2Proof.Machine

@[simp] theorem WireView.flush_pins (v : WireView) : v.flush.pins = v.pins := by
  unfold WireView.flush
  split <;> rfl

/-- `Decode` follows the pins as the trace sets them. -/
theorem see_pins (v : WireView) (e : Event) : (v.see e).pins = v.pins.after e := by
  cases e with
  | wait n => rfl
  | set p l =>
    simp only [WireView.see, Pins.after_set]
    split
    · split <;> rfl
    · exact WireView.flush_pins _
    all_goals rfl

theorem seeAll_pins (v : WireView) (t : List Event) : (v.seeAll t).pins = pinsAfter v.pins t := by
  induction t generalizing v with
  | nil => rfl
  | cons e t ih => exact (ih (v.see e)).trans (congrArg (pinsAfter · t) (see_pins v e))

/-- With CLOCK and TE low, a bit cell delivers its bit and leaves it on DATA. -/
theorem seeAll_cell {v : WireView} (h : Word) (b : Level) (hclock : v.pins.clock = false) (hte : v.pins.te = false) :
    v.seeAll (cell h b) = { v with bits := v.bits ++ [b], pins := { v.pins with data := b } } := by
  obtain ⟨items, bits, k, pwm, data, clock, te, pwmclk⟩ := v
  obtain rfl : clock = false := hclock
  obtain rfl : te = false := hte
  rfl

/-- Bit cells one after another deliver their bits in order and leave the last one on DATA. -/
theorem seeAll_cells {v : WireView} (h : Word) (bs : List Level) (hclock : v.pins.clock = false)
    (hte : v.pins.te = false) :
    v.seeAll (bs.flatMap (cell h)) =
      { v with bits := v.bits ++ bs, pins := { v.pins with data := bs.getLastD v.pins.data } } := by
  induction bs generalizing v with
  | nil => simp [WireView.seeAll]
  | cons b bs ih =>
    rw [List.flatMap_cons, seeAll_append, seeAll_cell h b hclock hte, ih]
    · simp only [List.getLastD_cons, List.append_assoc, List.singleton_append]
    · exact hclock
    · exact hte

theorem traceSer_eq (h w : Word) : traceSer h w = (wordBits w).flatMap (cell h) ++ [.set .data false] := by
  rw [traceSer, wordBits, List.flatMap_map]

/-- From idle lines, `SER W` delivers the bits of W and leaves the lines idle. -/
theorem seeAll_traceSer {v : WireView} (h w : Word) (hv : v.pins = Pins.low) :
    v.seeAll (traceSer h w) = { v with bits := v.bits ++ wordBits w } := by
  have hcells := seeAll_cells h (wordBits w) (congrArg Pins.clock hv) (congrArg Pins.te hv)
  rw [traceSer_eq, seeAll_append, hcells, hv]
  simp [WireView.seeAll, WireView.see, Pins.set, Pins.low]

/-- From idle lines, `BCAST W` delivers the bits of W twice and leaves the lines idle. -/
theorem seeAll_traceBcast {v : WireView} (h w : Word) (hv : v.pins = Pins.low) :
    v.seeAll (traceBcast h w) = { v with bits := v.bits ++ bcastBits w } := by
  have htwice : traceBcast h w = traceSer h w ++ traceSer h w := by simp [traceBcast, times]
  rw [htwice, seeAll_append, seeAll_traceSer h w hv, seeAll_traceSer]
  · simp
  · exact hv

/-- The chain sees the bits not yet made an item as it sees an item of them. -/
theorem chainSeeAll_flush (c : Chain) (v : WireView) :
    c.seeAll v.flush.items = (c.seeAll v.items).see (.bits v.bits) := by
  unfold WireView.flush
  split
  · next hnil => simp [Chain.see, hnil]
  · exact chainSeeAll_append c v.items [.bits v.bits]

theorem chainSee_bits_append (c : Chain) (bs cs : List Level) :
    c.see (.bits (bs ++ cs)) = (c.see (.bits bs)).see (.bits cs) := by
  simp [Chain.see]

/-- What is sent from idle lines and delivers data bits only shifts these into the chain. -/
theorem chainAfter_append_bits {c : Chain} {t u : List Event} {q : Pins} {bs : List Level}
    (hu : (WireView.start q).seeAll (t ++ u) =
      { (WireView.start q).seeAll t with bits := ((WireView.start q).seeAll t).bits ++ bs }) :
    chainAfter c q (t ++ u) = (chainAfter c q t).see (.bits bs) := by
  simp only [chainAfter, wireDecode, chainSeeAll_flush, hu, chainSee_bits_append]

/-- A chain in step holds the broadcast word in each of its ICs, whatever it held before. -/
theorem content_see_bcastBits {c : Chain} (w : Word) (hc : c.sync = .inStep) :
    (c.see (.bits (bcastBits w))).content = some (bcastBits w) := by
  have hlen : (bcastBits w).length = Config.nIcs * Config.wordW := by simp [wordBits, Config.nIcs, Config.wordW]
  simp [Chain.see, Chain.content, hc, ← hlen, List.length_append]

end Sys2Proof.Machine

namespace Sys2Proof.Proofs

open Sys2Proof.Machine

/-- Settles O43: the broadcast shifts in exactly as many bits as the chain has stages. -/
theorem broadcastFillsTheChain : Obligations.BroadcastFillsTheChain := by
  intro c t q h w hlow hsync
  have hpins : ((WireView.start q).seeAll t).pins = Pins.low := (seeAll_pins _ t).trans hlow
  have hview := (seeAll_append (WireView.start q) t (traceBcast h w)).trans (seeAll_traceBcast h w hpins)
  have hte : ((WireView.start q).seeAll (t ++ traceBcast h w)).pins.te = false := by
    rw [hview]
    exact congrArg Pins.te hpins
  calc chainFrom c q (t ++ traceBcast h w)
      = (chainAfter c q (t ++ traceBcast h w)).content := by simp [chainFrom, hte]
    _ = ((chainAfter c q t).see (.bits (bcastBits w))).content := by rw [chainAfter_append_bits hview]
    _ = some (bcastBits w) := content_see_bcastBits w hsync
    _ = some (wordBits w ++ wordBits w) := by rw [bcastBits_eq]

end Sys2Proof.Proofs
end

section
/-! SUPPORT. The table lookup of the display program (20_memory.md R43, 42_display_program.md R119). -/

namespace Sys2Proof.Machine

/-- The display program can be expressed with CNT_W = 16 (42_display_program.md R115 corner case d). -/
theorem canShow_of_cntW {p : Params} (h : p.cntW = 16) : p.canShow = true := by
  simp [Params.canShow, h]

/-- The first move of SHOW is silent and writes the pattern of its character into the record. -/
theorem moveRecord_show_lookup {p : Params} (c : Character) (q : Option Word) (h : p.canShow = true) :
    moveRecord p (.aShow c q 0) = .next (.become (.aShow c (some (readTable p.table c)) 1)) := by
  simp [moveRecord, moveShow, h]

end Sys2Proof.Machine

namespace Sys2Proof.Proofs

open Sys2Proof.Machine

/-- Settles O26: the lookup is the first move of SHOW, and the table is read at the record's character. -/
theorem showLooksUpItsPattern : Obligations.ShowLooksUpItsPattern := by
  intro s c q rest hreset hlegal hcnt hstack
  have hmove := moveRecord_show_lookup c q (canShow_of_cntW hcnt)
  rw [step_move hreset hlegal hstack hmove]
  cases c <;> rfl

end Sys2Proof.Proofs
end

section
/-! SUPPORT. The decoder and the encoder: every request that is not refused is the encoding of one instruction
(30_encoding.md R65, R66, R71 to R73). -/

namespace Sys2Proof

open Sys2Proof.Laws.Level (opField_append argField_append)

/-- A command word is made of its two fields (R71). -/
theorem opField_append_argField (cmd : BitVec 20) : opField cmd ++ argField cmd = cmd :=
  BitVec.extractLsb'_append_extractLsb' (w := 4) (len := 16)

@[simp] theorem decodeCommand_append (cntW : Nat) (op : BitVec 4) (arg : Word) :
    decodeCommand cntW (op ++ arg) = decodeFields cntW op arg := by
  rw [decodeCommand, opField_append, argField_append]

@[simp] theorem decode_commandWord (cntW : Nat) (op : BitVec 4) (arg : Word) :
    decode cntW (commandWord op arg) = decodeFields cntW op arg :=
  decodeCommand_append cntW op arg

/-- A count has CNT_W bits exactly when no bit at or above CNT_W is set (R72). -/
theorem countFits_iff {cntW : Nat} {k : Word} : countFits cntW k ↔ ¬ ∃ j, cntW ≤ j ∧ k.getLsbD j = true := by
  refine ⟨fun hfits ⟨j, hj, hbit⟩ => ?_, fun hbits => ?_⟩
  · have hlt : k.toNat < 2 ^ j := hfits.trans_le (Nat.pow_le_pow_right (by decide) hj)
    simp [BitVec.getLsbD, Nat.testBit_lt_two_pow hlt] at hbit
  · refine Nat.lt_pow_two_of_testBit _ fun j hj => ?_
    simpa [BitVec.getLsbD] using fun hbit => hbits ⟨j, hj, hbit⟩

/-- Decoding undoes encoding: a count that fits passes the decoder's check, and nothing else is checked of an
encoding. -/
theorem decode_encode {cntW : Nat} {i : Instr} (h : i.wf cntW = true) : decode cntW (encode i) = .ok i := by
  cases i
  case frame k => exact (decode_commandWord cntW _ k).trans (if_pos (of_decide_eq_true h))
  case pwmclk n => exact (decode_commandWord cntW _ n).trans (if_pos (of_decide_eq_true h))
  case wcmdStore | wcmdLatch | wcmdOnoff | wcmdState1 | wcmdState2 => rfl
  all_goals exact decode_commandWord cntW _ _

/-- The wire opcode map as a relation (R66). -/
theorem decodeWire_eq_ok_iff (k : Word) (i : Instr) : decodeWire k = .ok i ↔
    (k = 0#16 ∧ i = .wcmdStore) ∨ (k = 2#16 ∧ i = .wcmdLatch) ∨ (k = 7#16 ∧ i = .wcmdOnoff) ∨
      (k = 13#16 ∧ i = .wcmdState1) ∨ (k = 15#16 ∧ i = .wcmdState2) := by
  constructor
  · intro h
    unfold decodeWire at h
    split at h <;> cases h <;> next hk => simp [BitVec.toNat_eq, hk]
  · rintro (⟨rfl, rfl⟩ | ⟨rfl, rfl⟩ | ⟨rfl, rfl⟩ | ⟨rfl, rfl⟩ | ⟨rfl, rfl⟩) <;> rfl

/-- R73's list of the refused command words, by their fields. -/
def RefusedFields (cntW : Nat) (op : BitVec 4) (arg : Word) : Prop :=
  0xB ≤ op.toNat ∨ ((op = 0x5#4 ∨ op = 0x9#4) ∧ arg ≠ 0#16) ∨ (op = 0x8#4 ∧ 2 < arg.toNat) ∨
    ((op = 0x2#4 ∨ op = 0x3#4) ∧ ∃ j, cntW ≤ j ∧ arg.getLsbD j = true)

/-- The opcodes are the eleven of R72 and the reserved ones. -/
theorem opcode_cases (op : BitVec 4) :
    op = 0x0#4 ∨ op = 0x1#4 ∨ op = 0x2#4 ∨ op = 0x3#4 ∨ op = 0x4#4 ∨ op = 0x5#4 ∨ op = 0x6#4 ∨ op = 0x7#4 ∨
      op = 0x8#4 ∨ op = 0x9#4 ∨ op = 0xA#4 ∨ 0xB ≤ op.toNat := by
  decide +revert

theorem decodeFields_of_refused {cntW : Nat} {op : BitVec 4} {arg : Word} (h : RefusedFields cntW op arg) :
    ∃ e, decodeFields cntW op arg = .error e := by
  obtain hop | ⟨rfl | rfl, harg⟩ | ⟨rfl, harg⟩ | ⟨rfl | rfl, hbit⟩ := h
  · unfold decodeFields
    split
    case h_12 => exact ⟨_, rfl⟩
    all_goals omega
  · exact ⟨_, if_neg harg⟩
  · exact ⟨_, if_neg harg⟩
  · obtain ⟨n, hn⟩ := Nat.exists_eq_add_of_le' (m := 3) harg
    exact ⟨.noSuchCharacter, by simp [decodeFields, hn]⟩
  · exact ⟨_, if_neg fun hfits => countFits_iff.mp hfits hbit⟩
  · exact ⟨_, if_neg fun hfits => countFits_iff.mp hfits hbit⟩

theorem exists_encode_of_not_refused {cntW : Nat} {op : BitVec 4} {arg : Word} (h : ¬ RefusedFields cntW op arg) :
    ∃ i : Instr, i.wf cntW = true ∧ encode i = commandWord op arg := by
  simp only [RefusedFields, not_or, not_and, not_not] at h
  obtain ⟨hop, harg, hchar, hcount⟩ := h
  obtain rfl | rfl | rfl | rfl | rfl | rfl | rfl | rfl | rfl | rfl | rfl | hres := opcode_cases op
  · exact ⟨.ser arg, rfl, rfl⟩
  · exact ⟨.bcast arg, rfl, rfl⟩
  · exact ⟨.frame arg, decide_eq_true (countFits_iff.mpr (hcount (.inl rfl))), rfl⟩
  · exact ⟨.pwmclk arg, decide_eq_true (countFits_iff.mpr (hcount (.inr rfl))), rfl⟩
  · exact ⟨.delay arg, rfl, rfl⟩
  · obtain rfl := harg (.inl rfl)
    exact ⟨.stateset, rfl, rfl⟩
  · exact ⟨.pwmload arg, rfl, rfl⟩
  · exact ⟨.onoff arg, rfl, rfl⟩
  · have hthree : arg = 0#16 ∨ arg = 1#16 ∨ arg = 2#16 := by
      have := hchar rfl
      bv_omega
    obtain rfl | rfl | rfl := hthree
    · exact ⟨.showA, rfl, rfl⟩
    · exact ⟨.showB, rfl, rfl⟩
    · exact ⟨.showC, rfl, rfl⟩
  · obtain rfl := harg (.inr rfl)
    exact ⟨.init, rfl, rfl⟩
  · exact ⟨.run arg, rfl, rfl⟩
  · exact absurd hres hop

/-- A command word that is not on R73's list is an encoding, so it decodes and is not refused. -/
theorem decodeCommand_error_iff {cntW : Nat} {op : BitVec 4} {arg : Word} :
    (∃ e, decodeCommand cntW (op ++ arg) = .error e) ↔ RefusedFields cntW op arg := by
  rw [decodeCommand_append]
  refine ⟨fun ⟨e, he⟩ => ?_, decodeFields_of_refused⟩
  by_contra h
  obtain ⟨i, hwf, hi⟩ := exists_encode_of_not_refused h
  have hok := decode_encode hwf
  rw [hi, decode_commandWord, he] at hok
  cases hok

/-- A command word that decodes is the encoding of some instruction, and that is the one it decodes to. -/
theorem encode_of_decodeCommand {cntW : Nat} {cmd : BitVec 20} {i : Instr} (h : decodeCommand cntW cmd = .ok i) :
    encode i = .command cmd ∧ i.wf cntW = true := by
  have hnot : ¬ RefusedFields cntW (opField cmd) (argField cmd) := fun href => by
    obtain ⟨e, he⟩ := decodeFields_of_refused href
    cases h.symm.trans he
  obtain ⟨j, hwf, hj⟩ := exists_encode_of_not_refused hnot
  rw [commandWord, opField_append_argField] at hj
  have hok := decode_encode hwf
  rw [hj] at hok
  obtain rfl : i = j := Except.ok.inj (h.symm.trans hok)
  exact ⟨hj, hwf⟩

end Sys2Proof

namespace Sys2Proof.Proofs

open Sys2Proof.Machine

/-- Settles O1: the only check an encoding could fail is that of a count, and it is well-formed. -/
theorem decodeOfEncode : Obligations.DecodeOfEncode := fun _ _ => decode_encode

/-- Settles O2, at each of the two levels of encoding. -/
theorem encodeOfDecode : Obligations.EncodeOfDecode := by
  intro cntW q i h
  cases q with
  | command cmd => exact encode_of_decodeCommand h
  | wire k =>
    obtain ⟨rfl, rfl⟩ | ⟨rfl, rfl⟩ | ⟨rfl, rfl⟩ | ⟨rfl, rfl⟩ | ⟨rfl, rfl⟩ := (decodeWire_eq_ok_iff k i).mp h <;>
      exact ⟨rfl, rfl⟩

/-- Settles O3: the listed words fail the decoder's checks, and every other word is an encoding. -/
theorem refusedCommandWords : Obligations.RefusedCommandWords := fun _ _ _ => decodeCommand_error_iff

/-- Settles O5, word by word. -/
theorem specWordsDecode : Obligations.SpecWordsDecode := by
  unfold Obligations.SpecWordsDecode
  decide

/-- Settles O6: the wire opcode map, read in both directions. -/
theorem wireOpcodeMap : Obligations.WireOpcodeMap := decodeWire_eq_ok_iff

end Sys2Proof.Proofs
end

section
/-! SUPPORT. Counting the accepted command words, opcode by opcode (30_encoding.md R73). -/

namespace Sys2Proof

/-- Counting over `n` blocks of `m` numbers each. -/
theorem countP_range_mul (p : Nat → Bool) (n m : Nat) :
    (List.range (n * m)).countP p =
      ((List.range n).map fun i => (List.range m).countP fun k => p (i * m + k)).sum := by
  induction n with
  | zero => simp
  | succ n ih =>
    rw [Nat.succ_mul, List.range_add, List.countP_append, ih, List.countP_map, List.range_succ]
    simp [Function.comp_def]

theorem countP_range_lt (b m : Nat) : (List.range m).countP (fun k => decide (k < b)) = min b m := by
  induction m with
  | zero => simp
  | succ m ih =>
    rw [List.range_succ, List.countP_append, ih, List.countP_singleton]
    by_cases h : m < b
    · rw [if_pos (decide_eq_true h)]
      omega
    · rw [if_neg (by simpa using h)]
      omega

/-- How many values of `arg` an opcode admits with CNT_W = 16 (R72): they are those from 0 on. -/
def acceptedArgs (op : Nat) : Nat :=
  if op = 5 ∨ op = 9 then 1 else if op = 8 then 3 else if op < 11 then 2 ^ 16 else 0

theorem acceptedArgs_le (op : Nat) : acceptedArgs op ≤ 2 ^ 16 := by
  unfold acceptedArgs
  split_ifs <;> omega

theorem not_refusedFields_iff (op : BitVec 4) (arg : Word) :
    ¬ RefusedFields 16 op arg ↔ arg.toNat < acceptedArgs op.toNat := by
  have hfits : ¬ ∃ j, 16 ≤ j ∧ arg.getLsbD j = true := countFits_iff.mp arg.isLt
  simp only [RefusedFields, hfits, and_false, or_false, BitVec.toNat_eq, acceptedArgs, ne_eq, BitVec.toNat_ofNat]
  have := arg.isLt
  split_ifs <;> omega

/-- A number below 2^20 as a command word, by its two fields (R71). -/
theorem ofNat_fields {op arg : Nat} (harg : arg < 2 ^ 16) :
    BitVec.ofNat 20 (op * 2 ^ 16 + arg) = BitVec.ofNat 4 op ++ BitVec.ofNat 16 arg := by
  apply BitVec.eq_of_toNat_eq
  rw [BitVec.toNat_append, ← Nat.shiftLeft_add_eq_or_of_lt (BitVec.isLt _), Nat.shiftLeft_eq]
  simp only [BitVec.toNat_ofNat]
  omega

/-- The table's decoder accepts the command words that are not refused. -/
theorem decodeTableWord_isSome_iff {w : Nat} (hw : w < 2 ^ 20) :
    (decodeTableWord 24 w).isSome = true ↔ ¬ ∃ e, decodeCommand 16 (BitVec.ofNat 20 w) = .error e := by
  have hreq : requestOfTable 24 w = some (.command (BitVec.ofNat 20 w)) := by
    rw [requestOfTable, if_neg (by decide), if_pos hw]
  simp only [decodeTableWord, hreq, decode, Config.cntWDefault]
  cases decodeCommand 16 (BitVec.ofNat 20 w) <;> simp

theorem decodeTableWord_fields {op arg : Nat} (hop : op < 16) (harg : arg < 2 ^ 16) :
    (decodeTableWord 24 (op * 2 ^ 16 + arg)).isSome = true ↔ arg < acceptedArgs op := by
  rw [decodeTableWord_isSome_iff (by omega), ofNat_fields harg, decodeCommand_error_iff, not_refusedFields_iff,
    BitVec.toNat_ofNat, BitVec.toNat_ofNat, Nat.mod_eq_of_lt hop, Nat.mod_eq_of_lt harg]

/-- Of the words of one opcode as many are accepted as it has admissible arguments. -/
theorem countP_decodeTableWord_fields {op : Nat} (hop : op < 16) :
    (List.range (2 ^ 16)).countP (fun arg => (decodeTableWord 24 (op * 2 ^ 16 + arg)).isSome) = acceptedArgs op :=
  calc (List.range (2 ^ 16)).countP (fun arg => (decodeTableWord 24 (op * 2 ^ 16 + arg)).isSome)
      = (List.range (2 ^ 16)).countP (fun arg => decide (arg < acceptedArgs op)) :=
        List.countP_congr fun arg harg => by
          rw [decodeTableWord_fields hop (List.mem_range.mp harg), decide_eq_true_iff]
    _ = acceptedArgs op := by rw [countP_range_lt, min_eq_left (acceptedArgs_le op)]

end Sys2Proof

namespace Sys2Proof.Proofs

open Sys2Proof.Machine

/-- Settles O4: the sixteen opcodes have 2^16 words each, and each opcode accepts its first so many. -/
theorem acceptedWordCount : Obligations.AcceptedWordCount := by
  have hblocks : ∀ op ∈ List.range 16, _ = acceptedArgs op := fun op hop =>
    countP_decodeTableWord_fields (List.mem_range.mp hop)
  rw [Obligations.AcceptedWordCount, show 2 ^ 20 = 16 * 2 ^ 16 from rfl, countP_range_mul,
    List.map_congr_left hblocks]
  decide

end Sys2Proof.Proofs
end

section
/-! SUPPORT. The digits of the written form (30_encoding.md R75): a number reads back as the number it was printed
from. -/

namespace Sys2Proof.Machine

theorem idxOf_digitChar : ∀ n < 16, digitChars.idxOf (digitChar n) = n := by decide

theorem digitChar_mem : ∀ n < 16, digitChar n ∈ digitChars := by decide

theorem digitValue_digitChar {base n : Nat} (hbase : base ≤ 16) (hn : n < base) :
    digitValue base (digitChar n) = some n := by
  simp [digitValue, idxOf_digitChar n (hn.trans_le hbase), hn]

/-- The last digit read counts as the units. -/
theorem readDigits_concat {base acc v n : Nat} {cs : List Char} (hbase : base ≤ 16) (hn : n < base)
    (h : readDigits base acc cs = some v) : readDigits base acc (cs ++ [digitChar n]) = some (v * base + n) := by
  induction cs generalizing acc with
  | nil =>
    obtain rfl : acc = v := Option.some.inj h
    simp [readDigits, digitValue_digitChar hbase hn]
  | cons ch cs ih =>
    simp only [List.cons_append, readDigits] at h ⊢
    split at h
    · exact ih h
    · cases h

/-- Four digits base 16 read back as the word. -/
theorem readDigits_hexDigits (w : Word) : readDigits 16 0 (hexDigits w) = some w.toNat := by
  have hdigit (n : Nat) : n % 16 < 16 := Nat.mod_lt n (by decide)
  have hread0 : readDigits 16 0 [] = some 0 := rfl
  have hread1 := readDigits_concat le_rfl (hdigit (w.toNat / 4096)) hread0
  have hread2 := readDigits_concat le_rfl (hdigit (w.toNat / 256)) hread1
  have hread3 := readDigits_concat le_rfl (hdigit (w.toNat / 16)) hread2
  have hread4 := readDigits_concat le_rfl (hdigit w.toNat) hread3
  refine hread4.trans (congrArg some ?_)
  have := w.isLt
  omega

theorem readDigits_decimalDigits {fuel n : Nat} (h : n < 10 ^ fuel) :
    readDigits 10 0 (decimalDigits fuel n) = some n := by
  induction fuel generalizing n with
  | zero =>
    obtain rfl : n = 0 := by simpa using h
    rfl
  | succ fuel ih =>
    have hleading : readDigits 10 0 (if n < 10 then [] else decimalDigits fuel (n / 10)) = some (n / 10) := by
      split
      · next hlt => simp [readDigits, Nat.div_eq_of_lt hlt]
      · exact ih (Nat.div_lt_of_lt_mul (by omega))
    refine (readDigits_concat (by decide) (Nat.mod_lt n (by decide)) hleading).trans (congrArg some ?_)
    omega

theorem mem_digitChars_of_mem_hexDigits {w : Word} {ch : Char} (h : ch ∈ hexDigits w) : ch ∈ digitChars := by
  have hdigit (n : Nat) : digitChar (n % 16) ∈ digitChars := digitChar_mem _ (Nat.mod_lt n (by decide))
  simp only [hexDigits, List.mem_cons, List.not_mem_nil, or_false] at h
  obtain rfl | rfl | rfl | rfl := h <;> exact hdigit _

theorem mem_digitChars_of_mem_decimalDigits {fuel n : Nat} {ch : Char} (h : ch ∈ decimalDigits fuel n) :
    ch ∈ digitChars := by
  induction fuel generalizing n with
  | zero => cases h
  | succ fuel ih =>
    obtain hleading | hunits := List.mem_append.mp h
    · split at hleading
      · cases hleading
      · exact ih hleading
    · obtain rfl := List.mem_singleton.mp hunits
      exact digitChar_mem _ (by omega)

theorem decimalDigits_succ_ne_nil (fuel n : Nat) : decimalDigits (fuel + 1) n ≠ [] :=
  List.append_ne_nil_of_right_ne_nil _ (List.cons_ne_nil _ _)

@[simp] theorem asWord_toNat (w : Word) : asWord w.toNat = some w := by
  simp [asWord, w.isLt]

theorem readNumber_of_ne_nil {base : Nat} {cs : List Char} (h : cs ≠ []) :
    readNumber base cs = readDigits base 0 cs := by
  cases cs with
  | nil => exact absurd rfl h
  | cons ch cs => rfl

theorem readCount_writeCount (n : Word) : readCount (writeCount n) = some n := by
  have hlt : n.toNat < 10 ^ 5 := n.isLt.trans (by decide)
  rw [readCount, writeCount, readNumber_of_ne_nil (decimalDigits_succ_ne_nil 4 _), readDigits_decimalDigits hlt,
    Option.bind_some, asWord_toNat]

theorem readWord_writeWord (w : Word) : readWord (writeWord w) = some w := by
  change (readDigits 16 0 (hexDigits w)).bind asWord = some w
  rw [readDigits_hexDigits, Option.bind_some, asWord_toNat]

/-- A 16-bit operand with no `x` in it is read as a count is. -/
theorem readWord_eq_readCount {cs : List Char} (h : 'x' ∉ cs) : readWord cs = readCount cs := by
  unfold readWord
  split
  · simp at h
  · rfl

theorem readWord_writeCount (n : Word) : readWord (writeCount n) = some n := by
  have hx : 'x' ∉ writeCount n := fun h => absurd (mem_digitChars_of_mem_decimalDigits h) (by decide)
  rw [readWord_eq_readCount hx, readCount_writeCount]

end Sys2Proof.Machine
end

section
/-! SUPPORT. A line of the written form is a mnemonic, or a mnemonic, a space and an operand (30_encoding.md R75). -/

namespace Sys2Proof.Machine

/-- Text with neither a space nor the mark of a comment in it: a mnemonic or an operand. -/
abbrev Plain (cs : List Char) : Prop := cs ≠ [] ∧ ' ' ∉ cs ∧ ';' ∉ cs

theorem plain_writeCount (n : Word) : Plain (writeCount n) :=
  ⟨decimalDigits_succ_ne_nil 4 _, fun h => absurd (mem_digitChars_of_mem_decimalDigits h) (by decide),
    fun h => absurd (mem_digitChars_of_mem_decimalDigits h) (by decide)⟩

theorem plain_writeWord (w : Word) : Plain (writeWord w) := by
  have hspace : ' ' ∉ hexDigits w := fun h => absurd (mem_digitChars_of_mem_hexDigits h) (by decide)
  have hcomment : ';' ∉ hexDigits w := fun h => absurd (mem_digitChars_of_mem_hexDigits h) (by decide)
  simp [Plain, writeWord, hspace, hcomment]

theorem Plain.reverse {cs : List Char} (h : Plain cs) : Plain cs.reverse := by
  simpa [Plain] using h

theorem Plain.dropWhile_append {cs : List Char} (h : Plain cs) (rest : List Char) :
    (cs ++ rest).dropWhile (· = ' ') = cs ++ rest := by
  obtain ⟨hne, hspace, _⟩ := h
  cases cs with
  | nil => exact absurd rfl hne
  | cons ch cs =>
    have hch := List.ne_of_not_mem_cons hspace
    exact List.dropWhile_cons_of_neg (by simpa using hch.symm)

/-- Text that begins and ends plain has no spaces to take off. -/
theorem trimSpaces_eq_self {text x y u v : List Char} (hx : Plain x) (hy : Plain y) (hbegin : text = x ++ u)
    (hend : text = v ++ y) : trimSpaces text = text := by
  have hfront : text.dropWhile (· = ' ') = text := by rw [hbegin, hx.dropWhile_append]
  have hback : text.reverse.dropWhile (· = ' ') = text.reverse := by
    rw [hend, List.reverse_append, hy.reverse.dropWhile_append]
  rw [trimSpaces, hfront, hback, List.reverse_reverse]

/-- A line that begins with the mnemonic `m`, with nothing or a space after it, with no comment and no spaces around
it. -/
theorem readLine_eq_operation {cntW : Nat} {m rest operand : List Char} {i : Instr} (hm : Plain m)
    (hafter : rest.takeWhile (· ≠ ' ') = []) (hcomment : ';' ∉ rest) (htrim : trimSpaces (m ++ rest) = m ++ rest)
    (hoperand : trimSpaces rest = operand) (hread : readOperation m operand = some i) (hwf : i.wf cntW = true) :
    readLine cntW (m ++ rest) = .operation i := by
  obtain ⟨hne, hspace, hcomment'⟩ := hm
  have htext : (m ++ rest).takeWhile (· ≠ ';') = m ++ rest :=
    List.takeWhile_eq_self_iff.mpr fun ch hch => decide_eq_true fun heq =>
      (List.mem_append.mp (heq ▸ hch)).elim hcomment' hcomment
  have hmnemonic : (m ++ rest).takeWhile (· ≠ ' ') = m := by
    rw [List.takeWhile_append_of_pos, hafter, List.append_nil]
    exact fun ch hch => decide_eq_true fun heq => hspace (heq ▸ hch)
  simp only [readLine, htext, htrim, List.append_eq_nil_iff, hne, false_and, if_false, hmnemonic, List.drop_left,
    hoperand, hread, hwf, if_true]

theorem readLine_mnemonic {cntW : Nat} {m : List Char} {i : Instr} (hm : Plain m)
    (hread : readOperation m [] = some i) (hwf : i.wf cntW = true) : readLine cntW m = .operation i := by
  have htrim : trimSpaces (m ++ []) = m ++ [] :=
    trimSpaces_eq_self hm hm rfl ((List.append_nil m).trans (List.nil_append m).symm)
  have hline := readLine_eq_operation hm rfl List.not_mem_nil htrim rfl hread hwf
  rwa [List.append_nil] at hline

theorem readLine_operand {cntW : Nat} {m operand : List Char} {i : Instr} (hm : Plain m) (ho : Plain operand)
    (hread : readOperation m operand = some i) (hwf : i.wf cntW = true) :
    readLine cntW (m ++ ' ' :: operand) = .operation i := by
  have hcomment : ';' ∉ ' ' :: operand := List.not_mem_cons_of_ne_of_not_mem (by decide) ho.2.2
  have htrim : trimSpaces (m ++ ' ' :: operand) = m ++ ' ' :: operand :=
    trimSpaces_eq_self hm ho rfl (List.append_assoc m [' '] operand).symm
  have hoperand : trimSpaces (' ' :: operand) = operand :=
    trimSpaces_eq_self ho ho (List.append_nil operand).symm (List.nil_append operand).symm
  exact readLine_eq_operation hm rfl hcomment htrim hoperand hread hwf

/-- The written form of an operation: a mnemonic that reads as it, or a mnemonic and an operand that do (R75). -/
theorem written_cases {i : Instr} {text : List Char} (h : written i = some text) :
    (Plain text ∧ readOperation text [] = some i) ∨
      ∃ m operand, Plain m ∧ Plain operand ∧ text = m ++ ' ' :: operand ∧ readOperation m operand = some i := by
  cases i <;> cases h
  case stateset | init => exact .inl ⟨by decide, rfl⟩
  case showA | showB | showC => exact .inr ⟨['S', 'H', 'O', 'W'], [_], by decide, by decide, rfl, rfl⟩
  case ser w =>
    exact .inr ⟨['S', 'E', 'R'], _, by decide, plain_writeWord w, rfl,
      congrArg (Option.map Instr.ser) (readWord_writeWord w)⟩
  case bcast w =>
    exact .inr ⟨['B', 'C', 'A', 'S', 'T'], _, by decide, plain_writeWord w, rfl,
      congrArg (Option.map Instr.bcast) (readWord_writeWord w)⟩
  case pwmload m =>
    exact .inr ⟨['P', 'W', 'M', 'L', 'O', 'A', 'D'], _, by decide, plain_writeWord m, rfl,
      congrArg (Option.map Instr.pwmload) (readWord_writeWord m)⟩
  case onoff p =>
    exact .inr ⟨['O', 'N', 'O', 'F', 'F'], _, by decide, plain_writeWord p, rfl,
      congrArg (Option.map Instr.onoff) (readWord_writeWord p)⟩
  case frame k =>
    exact .inr ⟨['F', 'R', 'A', 'M', 'E'], _, by decide, plain_writeCount k, rfl,
      congrArg (Option.map Instr.frame) (readCount_writeCount k)⟩
  case pwmclk n =>
    exact .inr ⟨['P', 'W', 'M', 'C', 'L', 'K'], _, by decide, plain_writeCount n, rfl,
      congrArg (Option.map Instr.pwmclk) (readCount_writeCount n)⟩
  case delay n =>
    exact .inr ⟨['D', 'E', 'L', 'A', 'Y'], _, by decide, plain_writeCount n, rfl,
      congrArg (Option.map Instr.delay) (readCount_writeCount n)⟩
  case run n =>
    exact .inr ⟨['R', 'U', 'N'], _, by decide, plain_writeCount n, rfl,
      congrArg (Option.map Instr.run) (readWord_writeCount n)⟩

end Sys2Proof.Machine

namespace Sys2Proof.Proofs

open Sys2Proof.Machine

/-- Settles O7: the line splits at its space into the mnemonic and the operand it was written from. -/
theorem readOfWritten : Obligations.ReadOfWritten := by
  intro cntW i text hwf hwritten
  obtain ⟨hplain, hread⟩ | ⟨m, operand, hm, ho, rfl, hread⟩ := written_cases hwritten
  · exact readLine_mnemonic hplain hread hwf
  · exact readLine_operand hm ho hread hwf

end Sys2Proof.Proofs
end

section
/-! SUPPORT. What a command frame puts on the wire (43_wire_commands.md R139), and what the chain makes of the items it
is sent one after another (20_memory.md R42, 30_encoding.md R70, 70_reset_and_hazards.md R187). -/

namespace Sys2Proof.Machine

/-- With CLOCK low and TE high, pulses are counted and leave the lines as they were. -/
theorem seeAll_pulses {v : WireView} (h : Word) (n : Nat) (hclock : v.pins.clock = false) (hte : v.pins.te = true) :
    v.seeAll (times (pulse h) n) = { v with k := v.k + n } := by
  induction n generalizing v with
  | zero => rfl
  | succ n ih =>
    have hone : v.seeAll (pulse h) = { v with k := v.k + 1 } := by
      obtain ⟨items, bits, k, pwm, data, clock, te, pwmclk⟩ := v
      obtain rfl : clock = false := hclock
      obtain rfl : te = true := hte
      rfl
    rw [times, seeAll_append, hone, ih (v := { v with k := v.k + 1 }) hclock hte, Nat.add_right_comm, Nat.add_assoc]

@[simp] theorem WireView.flush_bits (v : WireView) : v.flush.bits = [] := by
  unfold WireView.flush
  split
  · assumption
  · rfl

/-- From idle lines, `FRAME K` delivers the data bits before it as one item, then its pulse count, and leaves the lines
idle. -/
theorem seeAll_traceFrame {v : WireView} (h k : Word) (hv : v.pins = Pins.low) :
    v.seeAll (traceFrame h k) = { v.flush with items := v.flush.items ++ [.cmd k.toNat], k := k.toNat } := by
  have hopen : v.seeAll [.set .te true] = { v.flush with k := 0, pins := Pins.low.set .te true } := by
    obtain ⟨items, bits, k, pwm, pins⟩ := v
    obtain rfl : pins = Pins.low := hv
    cases bits <;> rfl
  have hpulses := seeAll_pulses (v := { v.flush with k := 0, pins := Pins.low.set .te true }) h k.toNat rfl rfl
  rw [traceFrame, seeAll_append, seeAll_append, hopen, hpulses]
  simp [WireView.seeAll, WireView.see, Pins.set, Pins.low, Pins.get, hv]

/-- From idle lines, the trace `u` sends the sink the item `x` and leaves the lines idle. -/
structure Sends (u : List Event) (x : WireItem) : Prop where
  low : ∀ {v : WireView}, v.pins = Pins.low → (v.seeAll u).pins = Pins.low
  chain : ∀ {v : WireView}, v.pins = Pins.low → ∀ c : Chain,
    c.seeAll (v.seeAll u).flush.items = (c.seeAll v.flush.items).see x

theorem sends_bits {u : List Event} {bs : List Level}
    (hu : ∀ v : WireView, v.pins = Pins.low → v.seeAll u = { v with bits := v.bits ++ bs }) : Sends u (.bits bs) where
  low hv := by rw [hu _ hv, hv]
  chain hv c := by rw [hu _ hv, chainSeeAll_flush, chainSeeAll_flush, chainSee_bits_append]

theorem sends_traceSer (h w : Word) : Sends (traceSer h w) (.bits (wordBits w)) :=
  sends_bits fun _ => seeAll_traceSer h w

theorem sends_traceBcast (h w : Word) : Sends (traceBcast h w) (.bits (bcastBits w)) :=
  sends_bits fun _ => seeAll_traceBcast h w

theorem sends_traceFrame (h k : Word) : Sends (traceFrame h k) (.cmd k.toNat) where
  low hv := by simp [seeAll_traceFrame h k hv, hv]
  chain hv c := by
    rw [seeAll_traceFrame h k hv, WireView.flush, if_pos (WireView.flush_bits _), chainSeeAll_append]
    rfl

section
variable {c : Chain} {t u : List Event} {q : Pins} {x : WireItem} (hlow : pinsAfter q t = Pins.low)
include hlow

theorem Sends.pinsAfter_append (hu : Sends u x) : pinsAfter q (t ++ u) = Pins.low := by
  have hpins := hu.low ((seeAll_pins (WireView.start q) t).trans hlow)
  rwa [← seeAll_append, seeAll_pins] at hpins

theorem Sends.chainAfter_append (hu : Sends u x) : chainAfter c q (t ++ u) = (chainAfter c q t).see x := by
  have hchain := hu.chain ((seeAll_pins (WireView.start q) t).trans hlow) c
  rwa [← seeAll_append] at hchain

/-- Between operations the chain is read without the exception for an open TE window. -/
theorem chainFrom_of_low : chainFrom c q t = (chainAfter c q t).content := by
  have hte : ((WireView.start q).seeAll t).pins.te = false :=
    congrArg Pins.te ((seeAll_pins (WireView.start q) t).trans hlow)
  simp [chainFrom, hte]

end

@[simp] theorem wordBits_length (w : Word) : (wordBits w).length = Config.wordW := by
  simp [wordBits]

theorem content_eq_none_of_short {c : Chain} (h : c.known.length < Config.nIcs * Config.wordW) : c.content = none :=
  if_neg fun hfull => absurd hfull.2 (Nat.not_le.mpr h)

theorem content_eq_none_of_sync {c : Chain} (h : c.sync ≠ .inStep) : c.content = none :=
  if_neg fun hfull => h hfull.1

theorem keepsChain_iff (k : Word) : keepsChain k.toNat = true ↔ k = 0#16 ∨ k = 7#16 := by
  simp [keepsChain, Config.opcStore, Config.opcOnoff, BitVec.toNat_eq]

theorem keepsStep_iff (k : Word) : keepsStep k.toNat = true ↔ k = 2#16 ∨ k = 0#16 ∨ k = 7#16 := by
  simp [keepsStep, keepsChain_iff, Config.opcLatch, BitVec.toNat_eq]

/-- A frame after which the shift registers still hold their word leaves a chain in step as it is, after whole words. -/
theorem content_see_cmd_of_keepsChain {c : Chain} {k : Nat} (hk : keepsChain k = true) (hsync : c.sync = .inStep)
    (hwords : c.bits.length % Config.wordW = 0) : (c.see (.cmd k)).content = c.content := by
  have hstep : keepsStep k = true := by simp [keepsStep, hk]
  have hne : k ≠ Config.opcState1.toNat := by
    rintro rfl
    exact absurd hk (by decide)
  have hframe : c.sync.frame c.bits k = c.sync := by simp [Sync.frame, hne, hsync, hstep, hwords]
  simp only [Chain.see, Chain.content, hk, hframe, if_true]

/-- A frame after which they may not leaves nothing known. -/
theorem content_see_cmd_of_not_keepsChain {c : Chain} {k : Nat} (hk : ¬ keepsChain k = true) :
    (c.see (.cmd k)).content = none :=
  content_eq_none_of_short (by simp [Chain.see, hk])

/-- After a broadcast and a frame the word is still in both ICs, or nothing is known. -/
theorem content_see_bcast_frame {c : Chain} (w k : Word) (hsync : c.sync = .inStep)
    (hwords : c.bits.length % Config.wordW = 0) :
    ((c.see (.bits (bcastBits w))).see (.cmd k.toNat)).content =
      if k = 0#16 ∨ k = 7#16 then some (wordBits w ++ wordBits w) else none := by
  have hwords' : (c.bits ++ bcastBits w).length % Config.wordW = 0 := by
    simp [hwords, Nat.add_mod]
  split
  · next hk =>
    rw [content_see_cmd_of_keepsChain (c := c.see (.bits (bcastBits w))) ((keepsChain_iff k).mpr hk) hsync hwords',
      content_see_bcastBits w hsync, bcastBits_eq]
  · next hk => exact content_see_cmd_of_not_keepsChain (mt (keepsChain_iff k).mp hk)

/-- A frame whose count may misalign a chain takes a chain in step out of step. -/
theorem sync_see_cmd_ne_inStep {c : Chain} {k : Nat} (hk : ¬ keepsStep k = true) (hsync : c.sync = .inStep) :
    (c.see (.cmd k)).sync ≠ .inStep := by
  intro h
  obtain ⟨_, hhalf, _⟩ | ⟨_, hkeeps, _⟩ := syncFrame_inStep h
  · cases hhalf.symm.trans hsync
  · exact hk hkeeps

end Sys2Proof.Machine

namespace Sys2Proof.Proofs

open Sys2Proof.Machine

/-- Settles O53: each operation sends the chain one item, and the three claims are of what the items leave known. -/
theorem chainIsKnownOnlyWhereTheSpecSaysSo : Obligations.ChainIsKnownOnlyWhereTheSpecSaysSo := by
  intro c t q h w x k hlow hsync hwords
  have hbcast := (sends_traceBcast h w).pinsAfter_append hlow
  have hframe (k : Word) := (sends_traceFrame h k).pinsAfter_append hbcast
  have hchain (k : Word) : chainAfter c q (t ++ traceBcast h w ++ traceFrame h k) =
      ((chainAfter c q t).see (.bits (bcastBits w))).see (.cmd k.toNat) := by
    rw [(sends_traceFrame h k).chainAfter_append hbcast, (sends_traceBcast h w).chainAfter_append hlow]
  refine ⟨?_, ?_, fun h0 h2 h7 => ?_⟩
  · rw [chainFrom_of_low (hframe k), hchain]
    exact content_see_bcast_frame w k hsync hwords
  · have hser := sends_traceSer h x
    rw [chainFrom_of_low (hser.pinsAfter_append (hframe _)), hser.chainAfter_append (hframe _), hchain]
    exact content_eq_none_of_short (by simp [Chain.see, keepsChain, Config.opcStore, Config.opcOnoff])
  · have hlast := sends_traceBcast h x
    have hk : ¬ keepsStep k.toNat = true := by simp [keepsStep_iff, h0, h2, h7]
    rw [chainFrom_of_low (hlast.pinsAfter_append (hframe k)), hlast.chainAfter_append (hframe k), hchain]
    exact content_eq_none_of_sync (sync_see_cmd_ne_inStep hk hsync)

end Sys2Proof.Proofs
end

section
/-! SUPPORT. The invariant of the machine (10_state.md R13, R15, R16, R27): a move of a good top record leaves good
records, called as the scripts call them, on lines at the levels they stand for (40_primitives.md R86, 41_sequences.md
R104, 42_display_program.md R121). -/

namespace Sys2Proof.Machine

open Host (Outcome)

/-- The stack's part of a good state: fields, calls and lines. -/
structure StackOk (p : Params) (q : Pins) (k : List Record) : Prop where
  records : k.all (Record.ok p) = true
  calls : callsOk k = true
  pins : pinsOk q k = true

/-- A good state is a good stack in a legal configuration, with `RUN 0` at the bottom in AUTORUN. -/
theorem good_iff (s : State) :
    s.Good ↔ s.params.legal = true ∧ StackOk s.params s.pins s.stack ∧ bootOk s.params s.stack = true :=
  ⟨fun ⟨hlegal, hrecords, hcalls, hpins, hboot⟩ => ⟨hlegal, ⟨hrecords, hcalls, hpins⟩, hboot⟩,
    fun ⟨hlegal, ⟨hrecords, hcalls, hpins⟩, hboot⟩ => ⟨hlegal, hrecords, hcalls, hpins, hboot⟩⟩

/-- Goodness does not speak of the trace and of the host. -/
theorem State.Good.congr {s t : State} (h : s.Good) (hpins : t.pins = s.pins) (hstack : t.stack = s.stack)
    (hparams : t.params = s.params) : t.Good := by
  rw [good_iff, hpins, hstack, hparams]
  exact (good_iff s).mp h

/-- A caller is not disturbed by the progress of the record it called. -/
theorem Record.calls_of_continues {parent r r' : Record} (hcalls : parent.calls r = true)
    (hcont : r.continues r' = true) : parent.calls r' = true := by
  cases r <;> cases r' <;> simp [Record.continues] at hcont <;> cases parent <;> simp_all [Record.calls]

/-- A record that calls another steps only with all lines low. -/
theorem Record.pinsOk_low_of_calls {parent child : Record} (h : parent.calls child = true) :
    parent.pinsOk Pins.low = true := by
  cases parent <;> first | rfl | (simp [Record.calls] at h)

theorem callsOk_cons_of_continues {r r' : Record} {rest : List Record} (h : callsOk (r :: rest) = true)
    (hcont : r.continues r' = true) : callsOk (r' :: rest) = true := by
  cases rest with
  | nil => rfl
  | cons parent rest =>
    obtain ⟨hcall, hrest⟩ := Bool.and_eq_true_iff.mp h
    exact Bool.and_eq_true_iff.mpr ⟨Record.calls_of_continues hcall hcont, hrest⟩

section
variable {p : Params} {q q' : Pins} {r r' child : Record} {rest : List Record} (h : StackOk p q (r :: rest))
include h

theorem StackOk.top : r.ok p = true ∧ r.pinsOk q = true :=
  ⟨(List.all_eq_true.mp h.records) r List.mem_cons_self, h.pins⟩

/-- The top record goes on. -/
theorem StackOk.continue (hcont : r.continues r' = true) (hok : r'.ok p = true) (hpins : r'.pinsOk q' = true) :
    StackOk p q' (r' :: rest) where
  records := by simpa [hok] using (Bool.and_eq_true_iff.mp h.records).2
  calls := callsOk_cons_of_continues h.calls hcont
  pins := hpins

/-- The top record calls another. -/
theorem StackOk.push (hcont : r.continues r' = true) (hok : r'.ok p = true) (hcall : r'.calls child = true)
    (hchild : child.ok p = true) (hpins : child.pinsOk q' = true) : StackOk p q' (child :: r' :: rest) where
  records := by simpa [hok, hchild] using (Bool.and_eq_true_iff.mp h.records).2
  calls := Bool.and_eq_true_iff.mpr ⟨hcall, callsOk_cons_of_continues h.calls hcont⟩
  pins := hpins

/-- The top record ends with all lines low, and its caller goes on. -/
theorem StackOk.pop : StackOk p Pins.low rest := by
  obtain ⟨hrecords, hcalls, _⟩ := h
  cases rest with
  | nil => exact ⟨rfl, rfl, rfl⟩
  | cons parent rest =>
    obtain ⟨hcall, hrest⟩ := Bool.and_eq_true_iff.mp hcalls
    exact ⟨(Bool.and_eq_true_iff.mp hrecords).2, hrest, Record.pinsOk_low_of_calls hcall⟩

end

/-- The lines after the event of a move, if it has one. -/
def Pins.afterOption (q : Pins) : Option Event → Pins
  | none => q
  | some e => q.after e

/-- What a move leaves is good: the record that goes on, the record it calls, and low lines when it ends. -/
def Move.Sound (p : Params) (q : Pins) (m : Move) : Prop :=
  match m.self, m.child with
  | some r', none => r'.ok p = true ∧ r'.pinsOk (q.afterOption m.event) = true
  | some r', some c => r'.ok p = true ∧ r'.calls c = true ∧ c.ok p = true ∧ c.pinsOk (q.afterOption m.event) = true
  | none, none => q.afterOption m.event = Pins.low
  | none, some _ => False

section
variable {p : Params} {q : Pins}

@[simp] theorem Move.sound_emit {e : Event} {r : Record} :
    (Move.emit e r).Sound p q ↔ r.ok p = true ∧ r.pinsOk (q.after e) = true := Iff.rfl
@[simp] theorem Move.sound_emitPop {e : Event} : (Move.emitPop e).Sound p q ↔ q.after e = Pins.low := Iff.rfl
@[simp] theorem Move.sound_pop : Move.pop.Sound p q ↔ q = Pins.low := Iff.rfl
@[simp] theorem Move.sound_become {r : Record} :
    (Move.become r).Sound p q ↔ r.ok p = true ∧ r.pinsOk q = true := Iff.rfl
@[simp] theorem Move.sound_push {c r : Record} : (Move.push c r).Sound p q ↔
    r.ok p = true ∧ r.calls c = true ∧ c.ok p = true ∧ c.pinsOk q = true := Iff.rfl

end

/-- A sound move of the top record keeps the stack good. -/
theorem StackOk.move {p : Params} {q : Pins} {r : Record} {rest : List Record} {m : Move}
    (h : StackOk p q (r :: rest)) (hm : moveRecord p r = .next m) (hsound : m.Sound p q) :
    StackOk p (q.afterOption m.event) (m.child.toList ++ m.self.toList ++ rest) := by
  have hcont := (moveRecord_self_child hm).1
  unfold Move.Sound at hsound
  split at hsound
  · next r' hself hchild =>
    rw [hself, hchild]
    exact h.continue (hcont r' hself) hsound.1 hsound.2
  · next r' c hself hchild =>
    obtain ⟨hok, hcall, hchildOk, hpins⟩ := hsound
    rw [hself, hchild]
    exact h.push (hcont r' hself) hok hcall hchildOk hpins
  · next hself hchild =>
    rw [hself, hchild, hsound]
    exact h.pop
  · exact hsound.elim

section
variable {p : Params} {q : Pins}

/-- A legal CORE can express the frame of every wire command (92_eei_decisions.md D6). -/
theorem countFits_of_legal {k : Word} (hlegal : p.legal = true) (hk : k.toNat < 16) : countFits p.cntW k := by
  have h4 : 4 ≤ p.cntW := by
    simp [Params.legal] at hlegal
    exact hlegal.1.1
  exact hk.trans_le (Nat.pow_le_pow_right (n := 2) (by decide) h4)

/-- A CORE that can show can express every count. -/
theorem countFits_of_canShow (hshow : p.canShow = true) (k : Word) : countFits p.cntW k :=
  k.isLt.trans_le (Nat.pow_le_pow_right (by decide) (of_decide_eq_true hshow))

theorem countFits_countDown {w : Nat} {k : Word} (h : countFits w k) (hk : k ≠ 0#16) : countFits w (countDown k) := by
  have := countDown_toNat k hk
  simp only [countFits] at h ⊢
  omega

theorem frame_ok {k : Word} (h : countFits p.cntW k) : (Record.aFrame k 0).ok p = true := by
  simp [Record.ok, h]

theorem pwm_ok {n : Word} (h : countFits p.cntW n) : (Record.aPwm n 0).ok p = true := by
  simp [Record.ok, h]

theorem frame_ok_of_legal {k : Word} (hlegal : p.legal = true) (hk : k.toNat < 16) :
    (Record.aFrame k 0).ok p = true :=
  frame_ok (countFits_of_legal hlegal hk)

theorem moveSer_sound {shr : Word} {i : Fin (Config.wordW + 1)} {ph : Fin 5}
    (hok : (Record.aSer shr i ph).ok p = true) (hpins : (Record.aSer shr i ph).pinsOk q = true) :
    (moveSer p shr i ph).Sound p q := by
  simp only [Record.ok, Record.pinsOk, decide_eq_true_eq] at hok hpins
  unfold moveSer
  split
  · next hi =>
    have hbump := bump_val_of_lt i hi
    split <;> simp_all [Record.ok, Record.pinsOk, Pins.set]
  · next hi =>
    obtain rfl := hok.resolve_left hi
    simp_all [Pins.set, Pins.low]

theorem moveFrame_sound {k : Word} {ph : Fin 6} (hok : (Record.aFrame k ph).ok p = true)
    (hpins : (Record.aFrame k ph).pinsOk q = true) : (moveFrame p k ph).Sound p q := by
  simp only [Record.ok, Record.pinsOk, decide_eq_true_eq] at hok hpins
  obtain ⟨hfits, hpos, hzero⟩ := hok
  unfold moveFrame
  split
  case h_2 =>
    by_cases hk : k = 0#16 <;> simp_all [Record.ok, Record.pinsOk]
  case h_5 =>
    have hfits' := countFits_countDown hfits (hpos (by decide))
    simp_all [Record.ok, Record.pinsOk, Pins.set]
  all_goals simp_all [Record.ok, Record.pinsOk, Pins.set, Pins.low]

theorem movePwm_sound {n : Word} {ph : Fin 2} (hok : (Record.aPwm n ph).ok p = true)
    (hpins : (Record.aPwm n ph).pinsOk q = true) : (movePwm n ph).Sound p q := by
  simp only [Record.ok, Record.pinsOk, decide_eq_true_eq] at hok hpins
  obtain ⟨hfits, hpos⟩ := hok
  unfold movePwm
  split
  · by_cases hn : n = 0#16
    · cases q
      simp_all [Pins.low]
    · simp_all [Record.ok, Record.pinsOk, Pins.set]
  · have hfits' := countFits_countDown hfits (hpos rfl)
    simp_all [Record.ok, Record.pinsOk, Pins.set]

/-! The other records step only between operations, with all lines low. -/

theorem moveBcast_sound (w : Word) (j : Fin (Config.nIcs + 1)) : (moveBcast w j).Sound p Pins.low := by
  unfold moveBcast
  split
  · next hj => simp [Record.ok, Record.calls, Record.pinsOk, Pins.low, bump_val_of_lt j hj]
  · rfl

theorem moveStateset_sound (hlegal : p.legal = true) : ∀ pc : Fin 5, (moveStateset pc).Sound p Pins.low
  | 0 => ⟨rfl, rfl, rfl, rfl⟩
  | 1 => ⟨rfl, rfl, frame_ok_of_legal hlegal (by decide), rfl⟩
  | 2 => ⟨rfl, rfl, rfl, rfl⟩
  | 3 => ⟨rfl, rfl, frame_ok_of_legal hlegal (by decide), rfl⟩
  | 4 => rfl

theorem movePwmload_sound (hlegal : p.legal = true) {m : Word} {ch : Fin (Config.nCh + 1)} {pc : Fin 4}
    (hok : (Record.aPwmload m ch pc).ok p = true) : (movePwmload m ch pc).Sound p Pins.low := by
  simp only [Record.ok, decide_eq_true_eq] at hok
  obtain ⟨hin, hend⟩ := hok
  unfold movePwmload
  split
  · split
    · next hch => exact ⟨by simp [Record.ok, hch], by simp [Record.calls], rfl, rfl⟩
    · next hch => exact ⟨by simp [Record.ok]; omega, rfl⟩
  · have hcount := bump_val_of_lt ch (hin rfl)
    exact ⟨by simp [Record.ok], by simp [Record.calls, hcount], frame_ok_of_legal hlegal (by decide), rfl⟩
  · exact ⟨by simp [Record.ok, hend], by simp [Record.calls], frame_ok_of_legal hlegal (by decide), rfl⟩
  · rfl

theorem moveOnoff_sound (hlegal : p.legal = true) (w : Word) : ∀ pc : Fin 3, (moveOnoff w pc).Sound p Pins.low
  | 0 => ⟨rfl, by simp [Record.calls], rfl, rfl⟩
  | 1 => ⟨rfl, rfl, frame_ok_of_legal hlegal (by decide), rfl⟩
  | 2 => rfl

theorem moveInit_sound : ∀ pc : Fin 3, (moveInit pc).Sound p Pins.low
  | 0 => ⟨rfl, rfl, rfl, rfl⟩
  | 1 => ⟨rfl, rfl, rfl, rfl⟩
  | 2 => rfl

theorem moveShow_sound (hshow : p.canShow = true) {c : Character} {w : Option Word} {pc : Fin 6} {m : Move}
    (hok : (Record.aShow c w pc).ok p = true) (hm : moveShow p.table c w pc = .next m) : m.Sound p Pins.low := by
  have hfits := countFits_of_canShow hshow
  have hnext (pc' : Fin 6) (hpc : pc ≠ 0) (hpc' : pc' ≠ 0) : (Record.aShow c w pc').ok p = true := by
    simpa [Record.ok, hpc, hpc'] using hok
  unfold moveShow at hm
  split at hm
  · cases hm
    exact ⟨by simp [Record.ok, hshow], rfl⟩
  · split at hm <;> cases hm
    exact ⟨hnext _ (by decide) (by decide), by simp [Record.calls], rfl, rfl⟩
  · cases hm
    exact ⟨hnext _ (by decide) (by decide), rfl, frame_ok (hfits _), rfl⟩
  · cases hm
    exact ⟨hnext _ (by decide) (by decide), rfl, pwm_ok (hfits _), rfl⟩
  · cases hm
    exact ⟨hnext _ (by decide) (by decide), by simp [Record.calls], rfl, rfl⟩
  · cases hm
    rfl

theorem run_ok_iff {n done : Word} {c : Character} {pc : Fin 3} : (Record.aRun n done c pc).ok p = true ↔
    p.canShow = true ∧ (pc = 0 → done = 0#16 ∧ c = .chA) ∧ (n = 0#16 → done = 0#16) ∧
      (n ≠ 0#16 → done.toNat ≤ n.toNat ∧ (pc = 2 → done.toNat < n.toNat) ∧
        c = Nat.repeat nextChar done.toNat .chA) := by
  simp only [Record.ok, Bool.and_eq_true, decide_eq_true_eq]
  by_cases hn : n = 0#16 <;> simp [hn, and_assoc]

/-- RUN counts up to its bound, and the character goes with the count. -/
theorem run_ok_count {n done : Word} {c : Character} (hok : (Record.aRun n done c 2).ok p = true) :
    (Record.aRun n (if n = 0#16 then done else done + 1#16) (nextChar c) 1).ok p = true := by
  obtain ⟨hshow, -, hendless, hbounded⟩ := run_ok_iff.mp hok
  refine run_ok_iff.mpr ⟨hshow, by simp, fun hn => by simp [hn, hendless hn], fun hn => ?_⟩
  obtain ⟨-, hlt, rfl⟩ := hbounded hn
  have hbelow := hlt rfl
  have hcount : (done + 1#16).toNat = done.toNat + 1 := by bv_omega
  rw [if_neg hn, hcount]
  exact ⟨hbelow, by simp, rfl⟩

theorem moveRun_sound {n done : Word} {c : Character} {pc : Fin 3}
    (hok : (Record.aRun n done c pc).ok p = true) : (moveRun n done c pc).Sound p Pins.low := by
  obtain ⟨hshow, hstart, hendless, hbounded⟩ := run_ok_iff.mp hok
  unfold moveRun
  split
  · exact ⟨run_ok_iff.mpr ⟨hshow, by simp, hendless, fun hn => by simpa using hbounded hn⟩, rfl, rfl, rfl⟩
  · split
    · rfl
    · next hgoes =>
      refine ⟨run_ok_iff.mpr ⟨hshow, by simp, hendless, fun hn => ?_⟩, by simp [Record.calls],
        by simp [Record.ok, hshow], rfl⟩
      obtain ⟨hle, -, hchar⟩ := hbounded hn
      have hne : done.toNat ≠ n.toNat := fun heq => hgoes ⟨hn, BitVec.eq_of_toNat_eq heq⟩
      exact ⟨hle, fun _ => lt_of_le_of_ne hle hne, hchar⟩
  · exact ⟨run_ok_count hok, rfl⟩

/-- Every record but those of SER, FRAME and PWMCLK steps with all lines low. -/
theorem moveRecord_sound (hlegal : p.legal = true) {r : Record} {m : Move} (hok : r.ok p = true)
    (hpins : r.pinsOk q = true) (hm : moveRecord p r = .next m) : m.Sound p q := by
  cases r
  case aSer => exact Outcome.next.inj hm ▸ moveSer_sound hok hpins
  case aFrame => exact Outcome.next.inj hm ▸ moveFrame_sound hok hpins
  case aPwm => exact Outcome.next.inj hm ▸ movePwm_sound hok hpins
  all_goals obtain rfl : q = Pins.low := of_decide_eq_true hpins
  case aDelay => exact Outcome.next.inj hm ▸ (rfl : (moveDelay _).Sound p Pins.low)
  case aBcast => exact Outcome.next.inj hm ▸ moveBcast_sound _ _
  case aStateset => exact Outcome.next.inj hm ▸ moveStateset_sound hlegal _
  case aPwmload => exact Outcome.next.inj hm ▸ movePwmload_sound hlegal hok
  case aOnoff => exact Outcome.next.inj hm ▸ moveOnoff_sound hlegal _ _
  case aInit => exact Outcome.next.inj hm ▸ moveInit_sound _
  case aShow =>
    have hshow := (Bool.and_eq_true_iff.mp hok).1
    exact moveShow_sound hshow hok (by simpa [moveRecord, hshow] using hm)
  case aRun =>
    have hshow := (run_ok_iff.mp hok).1
    obtain rfl : moveRun _ _ _ _ = m := by simpa [moveRecord, hshow] using hm
    exact moveRun_sound hok

end

/-- The bottom of the stack does not depend on what stands above it. -/
theorem endsInRunZero_append {k rest : List Record} (h : rest ≠ []) :
    endsInRunZero (k ++ rest) = endsInRunZero rest := by
  simp [endsInRunZero, List.getLast?_append_of_ne_nil k h]

/-- `RUN 0` never pops itself: a move keeps its record at the bottom (42_display_program.md R118 corner case a). -/
theorem endsInRunZero_move {p : Params} {r : Record} {rest : List Record} {m : Move}
    (h : endsInRunZero (r :: rest) = true) (hm : moveRecord p r = .next m) :
    endsInRunZero (m.child.toList ++ m.self.toList ++ rest) = true := by
  by_cases hrest : rest = []
  · subst hrest
    cases r <;> simp [endsInRunZero] at h
    subst h
    simp only [moveRecord] at hm
    split at hm <;> cases hm
    unfold moveRun
    split
    · rfl
    · simp [Move.push, endsInRunZero]
    · rfl
  · rw [endsInRunZero_append hrest, ← endsInRunZero_append (k := [r]) hrest]
    exact h

/-- The record an instruction is taken as is good: an accepted count fits, and SHOW and RUN are taken only where they can
be expressed. -/
theorem created_ok {p : Params} {i : Instr} (hwf : i.wf p.cntW = true)
    (hshow : needsShow i = true → p.canShow = true) (hlegal : p.legal = true) : (created i).ok p = true := by
  cases i
  case frame => exact frame_ok (of_decide_eq_true hwf)
  case pwmclk => exact pwm_ok (of_decide_eq_true hwf)
  case wcmdStore | wcmdLatch | wcmdOnoff | wcmdState1 | wcmdState2 => exact frame_ok_of_legal hlegal (by decide)
  case showA | showB | showC => simp [created, Record.ok, hshow rfl]
  case run => exact run_ok_iff.mpr ⟨hshow rfl, by simp, by simp, by simp [Nat.repeat]⟩
  all_goals rfl

theorem created_pinsOk (i : Instr) : (created i).pinsOk Pins.low = true := by
  cases i <;> rfl

/-- Taking a well-formed instruction on an idle good CORE leaves it good. -/
theorem State.Good.take {s : State} {i : Instr} (h : s.Good) (hmode : s.params.bootMode = .hosted) (hk : s.stack = [])
    (hwf : i.wf s.params.cntW = true) (hshow : needsShow i = true → s.params.canShow = true) :
    ({ s with stack := [created i] } : State).Good where
  legal := h.legal
  records := by simp [created_ok hwf hshow h.legal]
  calls := rfl
  pins := by
    have hlow : s.pins = Pins.low := by simpa [hk, pinsOk] using h.pins
    simpa [pinsOk, hlow] using created_pinsOk i
  boot := by simp [bootOk, hmode]

/-- A move of the top record keeps a state good. -/
theorem State.Good.move {s : State} {r : Record} {rest : List Record} {m : Move} (h : s.Good)
    (hk : s.stack = r :: rest) (hm : moveRecord s.params r = .next m) : (s.clearOffer.applyMove m rest).Good := by
  obtain ⟨hlegal, hstack, hboot⟩ := (good_iff s).mp h
  rw [hk] at hstack hboot
  obtain ⟨hok, hpins⟩ := hstack.top
  refine (good_iff _).mpr ⟨by simpa using hlegal, ?_, ?_⟩
  · have := hstack.move hm (moveRecord_sound hlegal hok hpins hm)
    cases hev : m.event <;> simpa [hev, Pins.afterOption] using this
  · simp only [bootOk, Bool.or_eq_true, State.applyMove_params, State.clearOffer_params,
      State.applyMove_stack] at hboot ⊢
    exact hboot.imp_right (endsInRunZero_move · hm)

end Sys2Proof.Machine

namespace Sys2Proof.Proofs

open Sys2Proof.Machine

/-- Settles O47, case by case of what a step can do. -/
theorem goodIsKept : Obligations.GoodIsKept := by
  intro s t hs hstep
  obtain ⟨_, rfl⟩ | ⟨_, _, ⟨r, rest, m, hk, hm, rfl⟩ | ⟨_, _, rfl⟩ | ⟨_, _, _, rfl⟩ |
    ⟨hk, hmode, q, u, hq, i, hi, hexec⟩⟩ := step_cases hstep
  case inl => exact good_resetOf _ hs.legal
  case inr.inl => exact hs.move hk hm
  case inr.inr.inl => exact hs.congr rfl rfl rfl
  case inr.inr.inr.inl => exact hs
  case inr.inr.inr.inr =>
    obtain ⟨hpins, hstack, _, hparams⟩ := nextRequest_keeps hq
    have hu : u.Good := hs.congr hpins hstack hparams
    obtain ⟨hshow, ⟨hmode', hidle, rfl⟩ | ⟨_, rfl⟩⟩ := exec_cases hexec
    · exact hu.take hmode' hidle (hparams ▸ (encodeOfDecode _ _ _ hi).2) hshow
    · exact hu

/-- Settles O51: an idle good state has its lines low, and the step leads to a good state. -/
theorem idleLinesAreLow : Obligations.IdleLinesAreLow := by
  intro s t hs hstep hidle
  have hgood := goodIsKept s t hs hstep
  have hlow : t.pins = Pins.low := by simpa [(busy_eq_false_iff t).mp hidle, pinsOk] using hgood.pins
  simp [hlow, Pins.low]

end Sys2Proof.Proofs
end

section
/-! SUPPORT. One step and its frame (10_state.md R10, R12, R17): what a move of the top record writes, and that no step
reads a pin register. -/

namespace Sys2Proof.Machine

open Host (Outcome)

/-- A step with no reset, an operation in progress: a move of the top record. -/
theorem step_of_stack_cons {s t : State} {r : Record} {rest : List Record} (hreset : s.host.reset = false)
    (hk : s.stack = r :: rest) (h : step s = .next t) :
    ∃ m, moveRecord s.params r = .next m ∧ t = s.clearOffer.applyMove m rest := by
  obtain ⟨hr, _⟩ | ⟨_, _, ⟨r', rest', m, hk', hm, ht⟩ | ⟨hk', _⟩ | ⟨hk', _⟩ | ⟨hk', _⟩⟩ := step_cases h
  case inl => simp [hreset] at hr
  case inr.inl =>
    obtain ⟨rfl, rfl⟩ := List.cons.inj (hk.symm.trans hk')
    exact ⟨m, hm, ht⟩
  all_goals cases hk.symm.trans hk'

/-- A step with no reset, no operation in progress: nothing is emitted. -/
theorem step_of_stack_nil {s t : State} (hreset : s.host.reset = false) (hk : s.stack = []) (h : step s = .next t) :
    t.pins = s.pins ∧ t.trace = s.trace := by
  obtain ⟨hr, _⟩ | ⟨_, _, ⟨_, _, _, hk', _⟩ | ⟨_, _, rfl⟩ | ⟨_, _, _, rfl⟩ |
    ⟨_, _, _, u, hu, _, _, hexec⟩⟩ := step_cases h
  case inl => simp [hreset] at hr
  case inr.inl => cases hk.symm.trans hk'
  case inr.inr.inl => exact ⟨rfl, rfl⟩
  case inr.inr.inr.inl => exact ⟨rfl, rfl⟩
  case inr.inr.inr.inr =>
    obtain ⟨hpins, _, htrace, _⟩ := nextRequest_keeps hu
    obtain ⟨hpins', htrace', _⟩ := exec_keeps hexec
    exact ⟨hpins'.trans hpins, htrace'.trans htrace⟩

/-- The operation a write of line `p` comes from (10_state.md R12). -/
def Record.Drives (r : Record) : Line → Prop
  | .data => ∃ shr i ph, r = .aSer shr i ph
  | .clock => (∃ shr i ph, r = .aSer shr i ph) ∨ ∃ k ph, r = .aFrame k ph
  | .te => ∃ k ph, r = .aFrame k ph
  | .pwmclk => ∃ n ph, r = .aPwm n ph

/-- A record of a level above 0 steps silently (41_sequences.md R104, 42_display_program.md R121). -/
theorem moveRecord_silent {p : Params} {r : Record} {m : Move} (h : moveRecord p r = .next m) (hr : 0 < r.level) :
    m.event = none := by
  cases r
  case aSer | aFrame | aPwm | aDelay => simp [Record.level] at hr
  all_goals
    simp only [moveRecord, moveBcast, moveStateset, movePwmload, moveOnoff, moveInit, moveShow, moveRun] at h
    (repeat' split at h) <;> cases h <;> rfl

/-- A move writes only a line its record drives (40_primitives.md R80, R82, R83). -/
theorem moveRecord_drives {p : Params} {r : Record} {m : Move} {l : Line} {v : Level} (h : moveRecord p r = .next m)
    (hset : m.event = some (.set l v)) : r.Drives l := by
  cases r
  case aSer =>
    obtain rfl := Outcome.next.inj h
    unfold moveSer at hset
    (repeat' split at hset) <;> cases hset <;> simp [Record.Drives]
  case aFrame =>
    obtain rfl := Outcome.next.inj h
    unfold moveFrame at hset
    split at hset <;> cases hset <;> simp [Record.Drives]
  case aPwm =>
    obtain rfl := Outcome.next.inj h
    unfold movePwm at hset
    (repeat' split at hset) <;> cases hset <;> simp [Record.Drives]
  case aDelay =>
    obtain rfl := Outcome.next.inj h
    cases hset
  all_goals
    rw [moveRecord_silent h (by simp [Record.level])] at hset
    cases hset

/-- `s` with other pin levels. -/
def State.withPins (s : State) (q : Pins) : State := { s with pins := q }

section
variable {s t : State} (q : Pins)

@[simp] theorem State.withPins_params : (s.withPins q).params = s.params := rfl

theorem nextRequest_withPins :
    (s.withPins q).nextRequest = s.nextRequest.map fun (x, u) => (x, u.withPins q) := by
  simp only [State.nextRequest, State.withPins]
  split <;> rfl

theorem accept_withPins {r : Record} (h : s.accept r = .next t) :
    (s.withPins q).accept r = .next (t.withPins q) := by
  obtain ⟨hmode, hidle, rfl⟩ | ⟨htaken, rfl⟩ := accept_cases h
  · exact accept_idle (s := s.withPins q) hmode hidle r
  · exact if_neg fun hidle => htaken (hidle.imp_right (busy_eq_false_iff _).mp)

theorem exec_withPins {i : Instr} (h : exec i s = .next t) : exec i (s.withPins q) = .next (t.withPins q) := by
  rw [exec_eq] at h ⊢
  split at h
  · cases h
  · next hshow =>
    rw [State.withPins_params, if_neg hshow]
    exact accept_withPins q h

/-- No step reads a pin register (10_state.md R12): from other levels the same step has the same next state but for the
pins. -/
theorem step_withPins (h : step s = .next t) : ∃ q', step (s.withPins q) = .next (t.withPins q') := by
  obtain ⟨hreset, rfl⟩ | ⟨hreset, hlegal, ⟨r, rest, m, hk, hm, rfl⟩ | ⟨hk, hmode, rfl⟩ | ⟨hk, hmode, hx, hts⟩ |
    ⟨hk, hmode, x, u, hx, i, hi, hexec⟩⟩ := step_cases h
  case inl => exact ⟨Pins.low, if_pos hreset⟩
  case inr.inl =>
    refine ⟨((s.withPins q).emitOption m.event).pins, ?_⟩
    rw [step_move (s := s.withPins q) hreset hlegal hk hm]
    cases hev : m.event <;> simp [State.applyMove, hev] <;> rfl
  all_goals
    refine ⟨q, ?_⟩
    rw [step_idle (s := s.withPins q) hreset hlegal hk, idleCycle]
  case inr.inr.inl => simp [hmode]; rfl
  case inr.inr.inr.inl => simp [hmode, nextRequest_withPins, hx, hts]
  case inr.inr.inr.inr => simp [hmode, nextRequest_withPins, hx, hi, exec_withPins q hexec]

end

end Sys2Proof.Machine

namespace Sys2Proof.Proofs

open Sys2Proof.Machine

/-- Settles O21, by the five shapes of a move. -/
theorem oneThingAStep : Obligations.OneThingAStep := by
  intro s t r rest hreset hk hstep
  obtain ⟨m, hm, rfl⟩ := step_of_stack_cons hreset hk hstep
  obtain ⟨hself, hchild⟩ := moveRecord_self_child hm
  obtain ⟨e, r', rfl⟩ | ⟨e, rfl⟩ | rfl | ⟨r', rfl⟩ | ⟨c, r', rfl⟩ := moveRecord_shape hm
  · exact .inl ⟨e, some r', hself, rfl⟩
  · exact .inl ⟨e, none, hself, rfl⟩
  · exact .inr (.inr (.inl rfl))
  · exact .inr (.inr (.inr ⟨r', hself r' rfl, rfl⟩))
  · exact .inr (.inl ⟨c, r', hself r' rfl, hchild c rfl, rfl⟩)

/-- Settles O23: only a move of a record writes a line, and it writes one its record drives. -/
theorem whoWritesWhichPin : Obligations.WhoWritesWhichPin := by
  intro s t hreset hstep
  refine ⟨?_, fun q => step_withPins q hstep⟩
  cases hk : s.stack with
  | nil =>
    obtain ⟨hpins, htrace⟩ := step_of_stack_nil hreset hk hstep
    exact .inl ⟨.inl htrace, hpins⟩
  | cons r rest =>
    obtain ⟨m, hm, rfl⟩ := step_of_stack_cons hreset hk hstep
    cases hev : m.event with
    | none => exact .inl ⟨.inl (by simp [hev]), by simp [hev]⟩
    | some e =>
      cases e with
      | wait n => exact .inl ⟨.inr ⟨n, by simp [hev]⟩, by simp [hev]⟩
      | set l v =>
        have hdrives := moveRecord_drives hm hev
        refine .inr ⟨l, v, r, rest, by simp [hev], by simp [hev], rfl, ?_⟩
        cases l <;> exact hdrives

end Sys2Proof.Proofs
end

section
/-! SUPPORT. Running an operation to its end: runs by stacks and traces alone, and the invariant for the lines. -/

namespace Sys2Proof.Machine

/-- `s` after a run that emitted `tr` and left the stack `k`. -/
def State.after (s : State) (tr : List Event) (k : List Record) : State :=
  { s with pins := pinsAfter s.pins tr, stack := k, trace := s.trace ++ tr, host := { s.host with offer := none } }

theorem State.after_after (s : State) (tr tr' : List Event) (k k' : List Record) :
    (s.after tr k).after tr' k' = s.after (tr ++ tr') k' := by
  simp [State.after, pinsAfter_append]

/-- While no reset comes, a CORE with parameters `p` runs from the stack `k` to the stack `k'`, emitting `tr`, BUSY at
every step, whatever its lines, its trace and what the host offers. -/
def Emits (p : Params) (k : List Record) (tr : List Event) (k' : List Record) : Prop :=
  ∀ s : State, s.params = p → s.host.reset = false → s.stack = k → ∃ n, RunsTo n s (s.after tr k')

theorem Emits.trans {p : Params} {k k' k'' : List Record} {tr tr' : List Event} (h : Emits p k tr k')
    (h' : Emits p k' tr' k'') : Emits p k (tr ++ tr') k'' := by
  intro s hp hreset hk
  obtain ⟨n, hn⟩ := h s hp hreset hk
  obtain ⟨m, hm⟩ := h' (s.after tr k') hp hreset rfl
  exact ⟨n + m, hn.trans (State.after_after s tr tr' k' k'' ▸ hm)⟩

theorem applyMove_eq_after (s : State) (m : Move) (rest : List Record) :
    s.clearOffer.applyMove m rest = s.after m.event.toList (m.child.toList ++ m.self.toList ++ rest) := by
  obtain ⟨_ | e, self, child⟩ := m
  · simp [State.applyMove, State.after, State.clearOffer, pinsAfter]
  · rfl

section
variable {p : Params} (hlegal : p.legal = true) {r r' child : Record} {e : Event} (rest : List Record)
include hlegal

theorem Emits.move {m : Move} (hm : moveRecord p r = .next m) :
    Emits p (r :: rest) m.event.toList (m.child.toList ++ m.self.toList ++ rest) := by
  rintro s rfl hreset hk
  exact ⟨1, applyMove_eq_after s m rest ▸ RunsTo.move hreset hlegal hk hm⟩

theorem Emits.emit (hm : moveRecord p r = .next (.emit e r')) : Emits p (r :: rest) [e] (r' :: rest) :=
  Emits.move hlegal rest hm

theorem Emits.emitPop (hm : moveRecord p r = .next (.emitPop e)) : Emits p (r :: rest) [e] rest :=
  Emits.move hlegal rest hm

theorem Emits.pop (hm : moveRecord p r = .next .pop) : Emits p (r :: rest) [] rest :=
  Emits.move hlegal rest hm

/-- A call: the record it pushes runs off the stack, and the caller goes on. -/
theorem Emits.call {tr : List Event} (hm : moveRecord p r = .next (.push child r'))
    (hchild : Emits p (child :: r' :: rest) tr (r' :: rest)) : Emits p (r :: rest) tr (r' :: rest) :=
  (Emits.move hlegal rest hm).trans hchild

end

/-- Every state of a run from a good state is good. -/
theorem State.Good.runsTo {s t : State} {n : Nat} (h : s.Good) (hrun : RunsTo n s t) : t.Good := by
  induction n generalizing s with
  | zero => exact hrun ▸ h
  | succ n ih =>
    obtain ⟨_, u, hu, hrest⟩ := hrun
    exact ih (Proofs.goodIsKept s u h hu) hrest

theorem State.Ready.good {s : State} (h : s.Ready) : s.Good where
  legal := h.legal
  records := by simp [h.idle]
  calls := by simp [h.idle, callsOk]
  pins := by simp [h.idle, h.low, pinsOk]
  boot := by simp [bootOk, h.hosted]

/-- An operation whose record runs off the stack completes: the lines are back at their levels by the invariant. -/
theorem Emits.completes {s : State} {i : Instr} {tr : List Event} (h : Emits s.params [created i] tr [])
    (hs : s.Ready) (hwf : i.wf s.params.cntW = true) (hshow : needsShow i = true → s.params.canShow = true) :
    Completes i s tr := by
  have htaken : exec i s = .next { s with stack := [created i] } := by
    rw [exec_eq, if_neg fun hn => by simp [hshow hn.1] at hn, accept_idle hs.hosted hs.idle]
  obtain ⟨n, hrun⟩ := h { s with stack := [created i] } rfl hs.noReset rfl
  have hlow : pinsAfter s.pins tr = Pins.low :=
    of_decide_eq_true ((hs.good.take hs.hosted hs.idle hwf hshow).runsTo hrun).pins
  refine ⟨_, n, htaken, ?_⟩
  simpa only [State.after, hlow, ← hs.low, ← hs.idle] using hrun

end Sys2Proof.Machine
end

section
/-! SUPPORT. The primitive operations run off the stack with the traces of their rules (40_primitives.md R80 to R84). -/

namespace Sys2Proof.Machine

section
variable {p : Params} (hlegal : p.legal = true) (rest : List Record)
include hlegal

/-- One bit cell of SER (R86). -/
theorem emits_cell (shr : Word) {i : Fin (Config.wordW + 1)} (hi : i.val < Config.wordW) :
    Emits p (.aSer shr i 0 :: rest) (cell p.tHold (serBit shr)) (.aSer (serShift shr) (bump i) 0 :: rest) := by
  have hmove (ph : Fin 5) {m : Move} (hm : moveSer p shr i ph = m) : moveRecord p (.aSer shr i ph) = .next m :=
    congrArg _ hm
  have data := Emits.emit hlegal rest (hmove 0 (if_pos hi))
  have rise := Emits.emit hlegal rest (hmove 1 (if_pos hi))
  have high := Emits.emit hlegal rest (hmove 2 (if_pos hi))
  have fall := Emits.emit hlegal rest (hmove 3 (if_pos hi))
  have low := Emits.emit hlegal rest (hmove 4 (if_pos hi))
  exact data.trans (rise.trans (high.trans (fall.trans low)))

/-- The last `n` cells of SER and the closing write: the shift register holds the bits still to send. -/
theorem emits_cells (n : Nat) (shr : Word) (i : Fin (Config.wordW + 1)) (hi : i.val + n = Config.wordW) :
    Emits p (.aSer shr i 0 :: rest) (((List.range n).map shr.getLsbD).flatMap (cell p.tHold) ++ [.set .data false])
      rest := by
  induction n generalizing shr i with
  | zero => exact Emits.emitPop hlegal rest (congrArg _ (if_neg (by omega)))
  | succ n ih =>
    have hlt : i.val < Config.wordW := by omega
    have htail := ih (serShift shr) (bump i) (by rw [bump_val_of_lt i hlt]; omega)
    have hbits : (List.range (n + 1)).map shr.getLsbD = serBit shr :: (List.range n).map (serShift shr).getLsbD := by
      simp [List.range_succ_eq_map, serBit, serShift, Nat.add_comm, Function.comp_def]
    rw [hbits, List.flatMap_cons, List.append_assoc]
    exact (emits_cell hlegal rest shr hlt).trans htail

theorem emits_ser (w : Word) : Emits p (.aSer w 0 0 :: rest) (traceSer p.tHold w) rest := by
  rw [traceSer_eq]
  exact emits_cells hlegal rest 16 w 0 rfl

theorem emits_bcast (w : Word) : Emits p (.aBcast w 0 :: rest) (traceBcast p.tHold w) rest := by
  have first := Emits.call hlegal rest (r := .aBcast w 0) rfl (emits_ser hlegal (.aBcast w 1 :: rest) w)
  have second := Emits.call hlegal rest (r := .aBcast w 1) rfl (emits_ser hlegal (.aBcast w 2 :: rest) w)
  exact first.trans (second.trans (Emits.pop hlegal rest (r := .aBcast w 2) rfl))

/-- The pulses of FRAME still to give, and the wait that leaves the loop (R82 corner case b, R86). -/
theorem emits_pulses (n : Nat) (k : Word) (hk : k.toNat = n) :
    Emits p (.aFrame k 1 :: rest) (times (pulse p.tHold) n ++ [.wait p.tHold]) (.aFrame 0#16 5 :: rest) := by
  induction n generalizing k with
  | zero =>
    obtain rfl : k = 0#16 := BitVec.eq_of_toNat_eq hk
    exact Emits.emit hlegal rest rfl
  | succ n ih =>
    have hne : k ≠ 0#16 := by rintro rfl; cases hk
    have enter := Emits.emit hlegal rest (e := .wait p.tHold) (r := .aFrame k 1) (r' := .aFrame k 2)
      (by simp [moveRecord, moveFrame, hne])
    have rise := Emits.emit hlegal rest (r := .aFrame k 2) rfl
    have high := Emits.emit hlegal rest (r := .aFrame k 3) rfl
    have fall := Emits.emit hlegal rest (r := .aFrame k 4) rfl
    have htail := ih (countDown k) (by have := countDown_toNat k hne; omega)
    exact enter.trans (rise.trans (high.trans (fall.trans htail)))

theorem emits_frame (k : Word) : Emits p (.aFrame k 0 :: rest) (traceFrame p.tHold k) rest := by
  have rise := Emits.emit hlegal rest (r := .aFrame k 0) rfl
  have fall := Emits.emitPop hlegal rest (r := .aFrame 0#16 5) rfl
  have := rise.trans ((emits_pulses hlegal rest k.toNat k rfl).trans fall)
  simpa [traceFrame] using this

theorem emits_pwm (n : Word) : Emits p (.aPwm n 0 :: rest) (tracePwmclk n) rest := by
  unfold tracePwmclk
  induction hn : n.toNat generalizing n with
  | zero =>
    obtain rfl : n = 0#16 := BitVec.eq_of_toNat_eq hn
    exact Emits.pop hlegal rest rfl
  | succ m ih =>
    have hne : n ≠ 0#16 := by rintro rfl; cases hn
    have rise := Emits.emit hlegal rest (e := .set .pwmclk true) (r := .aPwm n 0) (r' := .aPwm n 1)
      (by simp [moveRecord, movePwm, hne])
    have fall := Emits.emit hlegal rest (r := .aPwm n 1) rfl
    have htail := ih (countDown n) (by have := countDown_toNat n hne; omega)
    exact rise.trans (fall.trans htail)

theorem emits_delay (n : Word) : Emits p (.aDelay n :: rest) (traceDelay n) rest :=
  Emits.emitPop hlegal rest rfl

end

/-- Shifting a bit at a time (R85). -/
theorem repeat_serShift (w : Word) (i : Nat) : Nat.repeat serShift i w = w >>> i := by
  induction i with
  | zero => rfl
  | succ i ih => rw [Nat.repeat, ih, serShift, BitVec.shiftRight_add]

/-! Counting events (R89): each count of a trace is the sum of the counts of its parts. -/

section
variable {t u : List Event} {a b c d e a' b' c' d' e' : Nat}

theorem Counts.append (h : Counts t a b c d e) (h' : Counts u a' b' c' d' e') :
    Counts (t ++ u) (a + a') (b + b') (c + c') (d + d') (e + e') := by
  obtain ⟨hl, hw, hc, hte, hpwm⟩ := h
  obtain ⟨hl', hw', hc', hte', hpwm'⟩ := h'
  simp only [Counts, List.length_append, waits_append, writes_append, hl, hw, hc, hte, hpwm, hl', hw', hc', hte',
    hpwm', and_self]

theorem Counts.times (h : Counts t a b c d e) (n : Nat) :
    Counts (times t n) (n * a) (n * b) (n * c) (n * d) (n * e) := by
  obtain ⟨hl, hw, hc, hte, hpwm⟩ := h
  simp only [Counts, times_length, waits_times, writes_times, hl, hw, hc, hte, hpwm, and_self]

end

theorem counts_cells (h : Word) (bs : List Level) :
    Counts (bs.flatMap (cell h)) (5 * bs.length) (2 * bs.length) bs.length 0 0 := by
  induction bs with
  | nil => exact ⟨rfl, rfl, rfl, rfl, rfl⟩
  | cons b bs ih =>
    have hcell : Counts (cell h b) 5 2 1 0 0 := by cases b <;> exact ⟨rfl, rfl, rfl, rfl, rfl⟩
    simpa [Nat.mul_add, Nat.add_comm] using hcell.append ih

theorem counts_traceSer (h w : Word) : Counts (traceSer h w) 81 32 16 0 0 := by
  have hcells := counts_cells h (wordBits w)
  rw [wordBits_length] at hcells
  rw [traceSer_eq]
  exact hcells.append ⟨rfl, rfl, rfl, rfl, rfl⟩

theorem counts_traceBcast (h w : Word) : Counts (traceBcast h w) 162 64 32 0 0 :=
  (counts_traceSer h w).times 2

theorem counts_traceFrame (h k : Word) :
    Counts (traceFrame h k) (4 * k.toNat + 3) (2 * k.toNat + 1) k.toNat 1 0 := by
  have hpulse : Counts (pulse h) 4 2 1 0 0 := ⟨rfl, rfl, rfl, rfl, rfl⟩
  have hopen : Counts [.set .te true] 1 0 0 1 0 := ⟨rfl, rfl, rfl, rfl, rfl⟩
  have hclose : Counts [.wait h, .set .te false] 2 1 0 0 0 := ⟨rfl, rfl, rfl, rfl, rfl⟩
  have hall := (hopen.append (hpulse.times k.toNat)).append hclose
  simp only [Counts] at hall
  simp only [Counts, traceFrame]
  omega

theorem counts_tracePwmclk (n : Word) : Counts (tracePwmclk n) (2 * n.toNat) 0 0 0 n.toNat := by
  have hcycle : Counts [.set .pwmclk true, .set .pwmclk false] 2 0 0 0 1 := ⟨rfl, rfl, rfl, rfl, rfl⟩
  simpa [tracePwmclk, Nat.mul_comm] using hcycle.times n.toNat

theorem writes_eq_zero_iff {l : Line} {v : Level} {t : List Event} : writes l v t = 0 ↔ .set l v ∉ t := by
  simp [writes, List.countP_eq_zero, List.forall_mem_ne']

theorem untouched_iff {l : Line} {t : List Event} : Untouched l t ↔ ∀ v, Event.set l v ∉ t := by
  simp [Untouched, writes_eq_zero_iff]

theorem untouched_append {l : Line} {t u : List Event} : Untouched l (t ++ u) ↔ Untouched l t ∧ Untouched l u := by
  simp [untouched_iff, forall_and]

theorem Untouched.times {l : Line} {t : List Event} (h : Untouched l t) (n : Nat) : Untouched l (times t n) := by
  obtain ⟨hlow, hhigh⟩ := h
  simp [Untouched, writes_times, hlow, hhigh]

theorem Untouched.flatMap {α : Type} {l : Line} {f : α → List Event} (h : ∀ a, Untouched l (f a)) (as : List α) :
    Untouched l (as.flatMap f) := by
  simp only [untouched_iff] at h ⊢
  simp [List.mem_flatMap, h]

theorem untouched_traceSer (h w : Word) : Untouched .te (traceSer h w) ∧ Untouched .pwmclk (traceSer h w) :=
  ⟨untouched_append.mpr ⟨.flatMap (fun _ => ⟨rfl, rfl⟩) _, ⟨rfl, rfl⟩⟩,
    untouched_append.mpr ⟨.flatMap (fun _ => ⟨rfl, rfl⟩) _, ⟨rfl, rfl⟩⟩⟩

theorem untouched_traceFrame (h k : Word) : Untouched .data (traceFrame h k) ∧ Untouched .pwmclk (traceFrame h k) := by
  have hparts (l : Line) (hopen : Untouched l [.set .te true]) (hpulse : Untouched l (pulse h))
      (hclose : Untouched l [.wait h, .set .te false]) : Untouched l (traceFrame h k) :=
    untouched_append.mpr ⟨untouched_append.mpr ⟨hopen, hpulse.times _⟩, hclose⟩
  exact ⟨hparts .data ⟨rfl, rfl⟩ ⟨rfl, rfl⟩ ⟨rfl, rfl⟩, hparts .pwmclk ⟨rfl, rfl⟩ ⟨rfl, rfl⟩ ⟨rfl, rfl⟩⟩

/-- Each bit cell writes DATA once, with one or the other level, and lowers CLOCK once. -/
theorem writes_cells (h : Word) (bs : List Level) :
    writes .data false (bs.flatMap (cell h)) + writes .data true (bs.flatMap (cell h)) = bs.length ∧
      writes .clock false (bs.flatMap (cell h)) = bs.length := by
  induction bs with
  | nil => exact ⟨rfl, rfl⟩
  | cons b bs ih =>
    have hdata : writes .data false (cell h b) + writes .data true (cell h b) = 1 := by cases b <;> rfl
    have hclock : writes .clock false (cell h b) = 1 := by cases b <;> rfl
    simp only [List.flatMap_cons, writes_append, List.length_cons]
    omega

theorem writes_traceSer (h w : Word) :
    writes .data false (traceSer h w) + writes .data true (traceSer h w) = 17 ∧
      writes .clock false (traceSer h w) = 16 := by
  obtain ⟨hdata, hclock⟩ := writes_cells h (wordBits w)
  have hclose : writes .data false [.set .data false] = 1 ∧ writes .data true [.set .data false] = 0 ∧
    writes .clock false [.set .data false] = 0 := ⟨rfl, rfl, rfl⟩
  simp only [wordBits_length, Config.wordW] at hdata hclock
  simp only [traceSer_eq, writes_append]
  omega

end Sys2Proof.Machine

namespace Sys2Proof.Proofs

open Sys2Proof.Machine

/-- Settles O27: bit 0 after `i` shifts right is bit `i`, and a word has sixteen bits. -/
theorem shiftRegisterPresentsTheBits : Obligations.ShiftRegisterPresentsTheBits := by
  intro w i
  constructor
  · rw [repeat_serShift, serBit, BitVec.getLsbD_ushiftRight, Nat.add_zero]
  · rw [repeat_serShift]
    exact BitVec.ushiftRight_eq_zero (Nat.le_refl 16)

/-- Settles O28: the sixteen cells of the word and the closing write. -/
theorem serSendsTheWord : Obligations.SerSendsTheWord := by
  intro s w hs
  obtain ⟨hdata, hclock⟩ := writes_traceSer s.params.tHold w
  exact ⟨rfl, (emits_ser hs.legal [] w).completes hs rfl (by simp [needsShow]), counts_traceSer _ w, hdata, hclock,
    untouched_traceSer _ w⟩

/-- Settles O29: the trace of a broadcast is that of the word, twice. -/
theorem bcastSendsTheWordTwice : Obligations.BcastSendsTheWordTwice := by
  intro s w hs
  have htwice : traceBcast s.params.tHold w = traceSer s.params.tHold w ++ traceSer s.params.tHold w := by
    simp [traceBcast, times]
  obtain ⟨hte, hpwm⟩ := untouched_traceSer s.params.tHold w
  exact ⟨rfl, htwice ▸ (emits_bcast hs.legal [] w).completes hs rfl (by simp [needsShow]),
    htwice ▸ counts_traceBcast _ w, untouched_append.mpr ⟨hte, hte⟩, untouched_append.mpr ⟨hpwm, hpwm⟩⟩

/-- Settles O30: the rise of TE, the pulses counted down to 0, one more wait and the fall of TE. -/
theorem frameGivesExactlyKPulses : Obligations.FrameGivesExactlyKPulses := by
  intro s k hs hk
  have hfall : writes .te false (traceFrame s.params.tHold k) = 1 := by
    simp only [traceFrame, writes_append, writes_times]
    rfl
  exact ⟨rfl, (emits_frame hs.legal [] k).completes hs (decide_eq_true hk) (by simp [needsShow]),
    counts_traceFrame _ k, hfall, untouched_traceFrame _ k⟩

/-- Settles O31: the cycles counted down to 0. -/
theorem pwmclkGivesExactlyNCycles : Obligations.PwmclkGivesExactlyNCycles := by
  intro s n hs hn
  exact ⟨rfl, (emits_pwm hs.legal [] n).completes hs (decide_eq_true hn) (by simp [needsShow]),
    counts_tracePwmclk n, .times ⟨rfl, rfl⟩ _, .times ⟨rfl, rfl⟩ _, .times ⟨rfl, rfl⟩ _⟩

/-- Settles O32: the one step of the record is the wait. -/
theorem delayWaitsOnce : Obligations.DelayWaitsOnce := fun _ n hs =>
  ⟨rfl, (emits_delay hs.legal [] n).completes hs rfl (by simp [needsShow])⟩

end Sys2Proof.Proofs
end

section
/-! SUPPORT. The traces of a list of operations, one after another (30_encoding.md R77). -/

namespace Sys2Proof.Machine

section
variable {p : Params} {i : Instr} {l l' : List Instr} {t u : List Event}

theorem tracesOf_cons (hi : traceOf p i = some t) (hl : tracesOf p l = some u) :
    tracesOf p (i :: l) = some (t ++ u) := by
  simp [tracesOf, hi, hl]

theorem tracesOf_append (hl : tracesOf p l = some t) (hl' : tracesOf p l' = some u) :
    tracesOf p (l ++ l') = some (t ++ u) := by
  induction l generalizing t with
  | nil =>
    obtain rfl := Option.some.inj hl
    exact hl'
  | cons i l ih =>
    unfold tracesOf at hl
    split at hl <;> cases hl
    next hi hrest =>
      rw [List.cons_append, tracesOf_cons hi (ih hrest), List.append_assoc]

theorem tracesOf_replicate (hl : tracesOf p l = some t) (n : Nat) :
    tracesOf p (List.replicate n l).flatten = some (times t n) := by
  induction n with
  | zero => rfl
  | succ n ih => exact tracesOf_append hl ih

end

theorem traceOf_showOf (p : Params) (c : Character) :
    traceOf p (expansion.showOf c) = some (traceShow p.tHold p.table c) := by
  cases c <;> rfl

theorem tracesOf_shows (p : Params) (c : Character) (m : Nat) :
    tracesOf p (expansion.shows c m) = some (traceShows p.tHold p.table c m) := by
  induction m generalizing c with
  | zero => rfl
  | succ m ih => exact tracesOf_cons (traceOf_showOf p c) (ih (nextChar c))

theorem tracesOf_showExpansion (p : Params) (c : Character) :
    tracesOf p (expansion.showExpansion p c) = some (traceShow p.tHold p.table c) := by
  simp [expansion.showExpansion, tracesOf, traceOf, traceShow]

end Sys2Proof.Machine

namespace Sys2Proof.Proofs

open Sys2Proof.Machine

/-- Settles O46, operation by operation: the traces of R81, R100 to R102, R115, R116 and R118 are written part by part
as R77 expands them. -/
theorem expansionsAreExact : Obligations.ExpansionsAreExact := by
  intro p i l h
  cases i
  case ser | frame | pwmclk | delay | wcmdStore | wcmdLatch | wcmdOnoff | wcmdState1 | wcmdState2 => cases h
  case run n =>
    by_cases hn : n = 0#16
    · simp [expansion, hn] at h
    · obtain rfl : .init :: expansion.shows .chA n.toNat = l := by simpa [expansion, hn] using h
      simpa [traceOf, hn] using tracesOf_cons (i := .init) rfl (tracesOf_shows p .chA n.toNat)
  all_goals obtain rfl := Option.some.inj h
  case bcast => rfl
  case stateset => simp [tracesOf, traceOf, traceStateset]
  case pwmload m =>
    have hpair : tracesOf p [.bcast m, .frame Config.opcStore] =
        some (traceBcast p.tHold m ++ traceFrame p.tHold Config.opcStore) := by simp [tracesOf, traceOf]
    have hlatch : tracesOf p [.frame Config.opcLatch] = some (traceFrame p.tHold Config.opcLatch) := by
      simp [tracesOf, traceOf]
    exact tracesOf_append (tracesOf_replicate hpair Config.nCh) hlatch
  case onoff => simp [tracesOf, traceOf, traceOnoff]
  case showA => exact tracesOf_showExpansion p .chA
  case showB => exact tracesOf_showExpansion p .chB
  case showC => exact tracesOf_showExpansion p .chC
  case init => simp [tracesOf, traceOf, traceInit]

end Sys2Proof.Proofs
end

section
/-! SUPPORT. The sequences STATESET, PWMLOAD and ONOFF are (broadcast, frame) pairs and single frames (41_sequences.md
R100 to R102, R104): each runs off the stack with the trace of its rule, and delivers the items of its parts to `Decode`
(43_wire_commands.md R139). -/

namespace Sys2Proof.Machine

section
variable {p : Params} (hlegal : p.legal = true) (rest : List Record)
include hlegal

/-- A (broadcast, frame) pair, called by two steps of one record. -/
theorem Emits.callBcastFrame {r r' r'' : Record} {w k : Word}
    (hbcast : moveRecord p r = .next (.push (.aBcast w 0) r'))
    (hframe : moveRecord p r' = .next (.push (.aFrame k 0) r'')) :
    Emits p (r :: rest) (traceBcast p.tHold w ++ traceFrame p.tHold k) (r'' :: rest) :=
  (Emits.call hlegal rest hbcast (emits_bcast hlegal (r' :: rest) w)).trans
    (Emits.call hlegal rest hframe (emits_frame hlegal (r'' :: rest) k))

theorem emits_stateset : Emits p (.aStateset 0 :: rest) (traceStateset p.tHold) rest := by
  have first := Emits.callBcastFrame hlegal rest (r := .aStateset 0) rfl rfl
  have second := Emits.callBcastFrame hlegal rest (r := .aStateset 2) rfl rfl
  have leave := Emits.pop hlegal rest (r := .aStateset 4) rfl
  have hall := first.trans (second.trans leave)
  simpa only [traceStateset, List.append_nil, List.append_assoc] using hall

/-- The last `n` channels of PWMLOAD (R101, R104). -/
theorem emits_channels (m : Word) (n : Nat) (ch : Fin (Config.nCh + 1)) (hch : ch.val + n = Config.nCh) :
    Emits p (.aPwmload m ch 0 :: rest) (times (traceBcast p.tHold m ++ traceFrame p.tHold Config.opcStore) n)
      (.aPwmload m (Fin.last Config.nCh) 2 :: rest) := by
  induction n generalizing ch with
  | zero =>
    obtain rfl : ch = Fin.last Config.nCh := Fin.ext hch
    exact Emits.move hlegal rest (m := .become (.aPwmload m (Fin.last Config.nCh) 2)) rfl
  | succ n ih =>
    have hlt : ch.val < Config.nCh := by omega
    have channel := Emits.callBcastFrame hlegal rest (r := .aPwmload m ch 0) (congrArg _ (if_pos hlt)) rfl
    exact channel.trans (ih (bump ch) (by rw [bump_val_of_lt ch hlt]; omega))

theorem emits_pwmload (m : Word) : Emits p (.aPwmload m 0 0 :: rest) (tracePwmload p.tHold m) rest := by
  have channels := emits_channels hlegal rest m Config.nCh 0 rfl
  have latch := Emits.call hlegal rest (r := .aPwmload m (Fin.last Config.nCh) 2) rfl
    (emits_frame hlegal (.aPwmload m (Fin.last Config.nCh) 3 :: rest) Config.opcLatch)
  have leave := Emits.pop hlegal rest (r := .aPwmload m (Fin.last Config.nCh) 3) rfl
  have hall := (channels.trans latch).trans leave
  rwa [List.append_nil] at hall

theorem emits_onoff (w : Word) : Emits p (.aOnoff w 0 :: rest) (traceOnoff p.tHold w) rest := by
  have pair := Emits.callBcastFrame hlegal rest (r := .aOnoff w 0) rfl rfl
  have hall := pair.trans (Emits.pop hlegal rest (r := .aOnoff w 2) rfl)
  rwa [List.append_nil] at hall

end

theorem counts_traceStateset (h : Word) : Counts (traceStateset h) 442 186 92 2 0 :=
  (((counts_traceBcast h _).append (counts_traceFrame h _)).append (counts_traceBcast h _)).append
    (counts_traceFrame h _)

theorem counts_tracePwmload (h m : Word) : Counts (tracePwmload h m) 2651 1045 514 17 0 :=
  (((counts_traceBcast h m).append (counts_traceFrame h _)).times 16).append (counts_traceFrame h _)

theorem counts_traceOnoff (h w : Word) : Counts (traceOnoff h w) 193 79 39 1 0 :=
  (counts_traceBcast h w).append (counts_traceFrame h _)

theorem untouched_traceBcast (h w : Word) :
    Untouched .te (traceBcast h w) ∧ Untouched .pwmclk (traceBcast h w) :=
  ⟨(untouched_traceSer h w).1.times _, (untouched_traceSer h w).2.times _⟩

/-- A (broadcast, frame) pair does not write PWMCLK. -/
theorem untouched_bcast_frame (h w k : Word) : Untouched .pwmclk (traceBcast h w ++ traceFrame h k) :=
  untouched_append.mpr ⟨(untouched_traceBcast h w).2, (untouched_traceFrame h k).2⟩

theorem untouched_traceStateset (h : Word) : Untouched .pwmclk (traceStateset h) := by
  rw [traceStateset, List.append_assoc]
  exact untouched_append.mpr ⟨untouched_bcast_frame h _ _, untouched_bcast_frame h _ _⟩

theorem untouched_tracePwmload (h m : Word) : Untouched .pwmclk (tracePwmload h m) :=
  untouched_append.mpr ⟨(untouched_bcast_frame h m _).times _, (untouched_traceFrame h _).2⟩

/-- From idle lines and with no data bit waiting for a frame, `t` delivers exactly `items` and `n` cycles of PWMCLK to
`Decode`, and leaves the lines idle and no data bit waiting. -/
def Delivers (t : List Event) (items : List WireItem) (n : Nat) : Prop :=
  ∀ v : WireView, v.pins = Pins.low → v.bits = [] →
    ∃ k, v.seeAll t = { v with items := v.items ++ items, k := k, pwm := v.pwm + n }

section
variable {t u : List Event} {l l' : List WireItem} {n n' : Nat}

theorem Delivers.append (h : Delivers t l n) (h' : Delivers u l' n') : Delivers (t ++ u) (l ++ l') (n + n') := by
  intro v hpins hbits
  obtain ⟨k, hk⟩ := h v hpins hbits
  obtain ⟨k', hk'⟩ := h' (v.seeAll t) (by rw [hk, hpins]) (by rw [hk, hbits])
  refine ⟨k', ?_⟩
  rw [seeAll_append, hk', hk]
  simp only [List.append_assoc, Nat.add_assoc]

theorem Delivers.times (h : Delivers t l n) (m : Nat) :
    Delivers (times t m) (List.replicate m l).flatten (m * n) := by
  induction m with
  | zero => exact fun v _ _ => ⟨v.k, by simp [Machine.times, WireView.seeAll]⟩
  | succ m ih =>
    rw [List.replicate_succ, List.flatten_cons, Nat.succ_mul, Nat.add_comm (m * n)]
    exact h.append ih

theorem Delivers.wireDecode_eq (h : Delivers t l n) : wireDecode t Pins.low = ⟨l, n, Pins.low⟩ := by
  obtain ⟨k, hk⟩ := h (.start Pins.low) rfl rfl
  simp only [wireDecode, hk]
  simp [WireView.flush, WireView.start]

end

theorem delivers_traceFrame (h k : Word) : Delivers (traceFrame h k) [.cmd k.toNat] 0 := by
  intro v hpins hbits
  exact ⟨k.toNat, by rw [seeAll_traceFrame h k hpins, WireView.flush, if_pos hbits, Nat.add_zero]⟩

/-- The frame closes the item of the broadcast before it. -/
theorem delivers_bcast_frame (h w k : Word) :
    Delivers (traceBcast h w ++ traceFrame h k) [bcastItem w, .cmd k.toNat] 0 := by
  intro v hpins hbits
  have hne : wordBits w ≠ [] := List.ne_nil_of_length_pos (by simp)
  have hframe := seeAll_traceFrame (v := { v with bits := v.bits ++ bcastBits w }) h k hpins
  refine ⟨k.toNat, ?_⟩
  rw [seeAll_append, seeAll_traceBcast h w hpins, hframe]
  simp [WireView.flush, hbits, hne, bcastItem]

theorem delivers_traceStateset (h : Word) :
    Delivers (traceStateset h) [bcastItem Config.ssd1, .cmd 13, bcastItem Config.ssd2, .cmd 15] 0 := by
  rw [traceStateset, List.append_assoc]
  exact (delivers_bcast_frame h _ _).append (delivers_bcast_frame h _ _)

theorem delivers_tracePwmload (h m : Word) :
    Delivers (tracePwmload h m) ((List.replicate 16 [bcastItem m, .cmd 0]).flatten ++ [.cmd 2]) 0 :=
  ((delivers_bcast_frame h m _).times 16).append (delivers_traceFrame h _)

theorem delivers_traceOnoff (h w : Word) : Delivers (traceOnoff h w) [bcastItem w, .cmd 7] 0 :=
  delivers_bcast_frame h w _

end Sys2Proof.Machine

namespace Sys2Proof.Proofs

open Sys2Proof.Machine

/-- Settles O33: the record calls the two pairs with the hardwired words and pulse counts. -/
theorem statesetSendsItsTwoPairs : Obligations.StatesetSendsItsTwoPairs := fun s hs =>
  ⟨rfl, (emits_stateset hs.legal []).completes hs rfl (by simp [needsShow]), counts_traceStateset s.params.tHold,
    untouched_traceStateset _, (delivers_traceStateset _).wireDecode_eq⟩

/-- Settles O34: sixteen turns of the loop, each a pair, then the latch. -/
theorem pwmloadLoadsSixteenChannels : Obligations.PwmloadLoadsSixteenChannels := fun s m hs =>
  ⟨rfl, (emits_pwmload hs.legal [] m).completes hs rfl (by simp [needsShow]), counts_tracePwmload s.params.tHold m,
    untouched_tracePwmload _ m, (delivers_tracePwmload _ m).wireDecode_eq⟩

/-- Settles O35: one pair of the mask and a frame of 7. -/
theorem onoffSendsTheMask : Obligations.OnoffSendsTheMask := fun s w hs =>
  ⟨rfl, (emits_onoff hs.legal [] w).completes hs rfl (by simp [needsShow]), counts_traceOnoff s.params.tHold w,
    untouched_bcast_frame _ w _, (delivers_traceOnoff _ w).wireDecode_eq⟩

end Sys2Proof.Proofs
end

section
/-! SUPPORT. The display program (42_display_program.md R115, R116, R118): SHOW, INIT and the turns of RUN run off the
stack with the traces of their rules, and deliver the items of their parts to `Decode` (43_wire_commands.md R139). -/

namespace Sys2Proof.Machine

section
variable {p : Params} (hlegal : p.legal = true) (rest : List Record)
include hlegal

theorem Emits.become {r r' : Record} (hm : moveRecord p r = .next (.become r')) :
    Emits p (r :: rest) [] (r' :: rest) :=
  Emits.move hlegal rest hm

theorem emits_init : Emits p (.aInit 0 :: rest) (traceInit p.tHold) rest := by
  have stateset := Emits.call hlegal rest (r := .aInit 0) rfl (emits_stateset hlegal (.aInit 1 :: rest))
  have pwmload := Emits.call hlegal rest (r := .aInit 1) rfl (emits_pwmload hlegal (.aInit 2 :: rest) Config.pwmInit)
  have hall := (stateset.trans pwmload).trans (Emits.pop hlegal rest (r := .aInit 2) rfl)
  rwa [List.append_nil] at hall

variable (hshow : p.canShow = true)
include hshow

/-- The four calls of SHOW with the pattern it has looked up (R121). -/
theorem emits_show_pattern (c : Character) (w : Word) : Emits p (.aShow c (some w) 1 :: rest)
    (traceOnoff p.tHold w ++ traceFrame p.tHold Config.opcLatch ++ tracePwmclk Config.pwmHold ++
      traceDelay Config.showMs) rest := by
  have onoff := Emits.call hlegal rest (r := .aShow c (some w) 1) (if_pos hshow) (emits_onoff hlegal _ w)
  have latch := Emits.call hlegal rest (r := .aShow c (some w) 2) (if_pos hshow) (emits_frame hlegal _ _)
  have pwm := Emits.call hlegal rest (r := .aShow c (some w) 3) (if_pos hshow) (emits_pwm hlegal _ _)
  have delay := Emits.call hlegal rest (r := .aShow c (some w) 4) (if_pos hshow) (emits_delay hlegal _ _)
  have leave := Emits.pop hlegal rest (r := .aShow c (some w) 5) (if_pos hshow)
  have hall := (((onoff.trans latch).trans pwm).trans delay).trans leave
  rwa [List.append_nil] at hall

theorem emits_show (c : Character) : Emits p (.aShow c none 0 :: rest) (traceShow p.tHold p.table c) rest :=
  (Emits.become hlegal rest (moveRecord_show_lookup c none hshow)).trans (emits_show_pattern hlegal rest hshow c _)

/-- RUN starts with INIT. -/
theorem emits_run_init (n : Word) :
    Emits p (.aRun n 0#16 .chA 0 :: rest) (traceInit p.tHold) (.aRun n 0#16 .chA 1 :: rest) :=
  Emits.call hlegal rest (if_pos hshow) (emits_init hlegal _)

/-- One turn of RUN short of its bound: a SHOW, and on to the next character. -/
theorem emits_run_turn {n done : Word} (c : Character) (hgoes : ¬ (n ≠ 0#16 ∧ done = n)) :
    Emits p (.aRun n done c 1 :: rest) (traceShow p.tHold p.table c)
      (.aRun n (if n = 0#16 then done else done + 1#16) (nextChar c) 1 :: rest) := by
  have hcall : moveRecord p (.aRun n done c 1) = .next (.push (.aShow c none 0) (.aRun n done c 2)) := by
    rw [moveRecord, if_pos hshow, moveRun, if_neg hgoes]
  have turn := Emits.call hlegal rest hcall (emits_show hlegal (.aRun n done c 2 :: rest) hshow c)
  have hall := turn.trans (Emits.become hlegal rest (r := .aRun n done c 2) (if_pos hshow))
  rwa [List.append_nil] at hall

/-- The last `m` turns of a bounded RUN. -/
theorem emits_run_turns {n : Word} (hn : n ≠ 0#16) (m : Nat) (done : Word) (c : Character)
    (hm : done.toNat + m = n.toNat) :
    Emits p (.aRun n done c 1 :: rest) (traceShows p.tHold p.table c m) rest := by
  induction m generalizing done c with
  | zero =>
    obtain rfl : done = n := BitVec.eq_of_toNat_eq hm
    refine Emits.pop hlegal rest ?_
    rw [moveRecord, if_pos hshow, moveRun, if_pos ⟨hn, rfl⟩]
  | succ m ih =>
    have hlt : done ≠ n := by rintro rfl; omega
    have turn := emits_run_turn hlegal rest hshow c fun hend => hlt hend.2
    rw [if_neg hn] at turn
    exact turn.trans (ih (done + 1#16) (nextChar c) (by have := n.isLt; bv_omega))

theorem emits_run {n : Word} (hn : n ≠ 0#16) : Emits p (.aRun n 0#16 .chA 0 :: rest)
    (traceInit p.tHold ++ traceShows p.tHold p.table .chA n.toNat) rest :=
  (emits_run_init hlegal rest hshow n).trans (emits_run_turns hlegal rest hshow hn _ _ _ (Nat.zero_add _))

end

section
variable (h : Word) (t : Table) (c : Character)

theorem counts_traceInit : Counts (traceInit h) 3093 1231 606 19 0 :=
  (counts_traceStateset h).append (counts_tracePwmload h _)

theorem counts_traceShow : Counts (traceShow h t c) 131275 85 41 2 65535 :=
  have hdelay : Counts (traceDelay Config.showMs) 1 1 0 0 0 := ⟨rfl, rfl, rfl, rfl, rfl⟩
  (((counts_traceOnoff h _).append (counts_traceFrame h _)).append (counts_tracePwmclk _)).append hdelay

theorem counts_traceShows (m : Nat) :
    Counts (traceShows h t c m) (131275 * m) (85 * m) (41 * m) (2 * m) (65535 * m) := by
  induction m generalizing c with
  | zero => exact ⟨rfl, rfl, rfl, rfl, rfl⟩
  | succ m ih =>
    simp only [Nat.mul_succ, Nat.add_comm (_ * m)]
    exact (counts_traceShow h t c).append (ih (nextChar c))

theorem untouched_traceInit : Untouched .pwmclk (traceInit h) :=
  untouched_append.mpr ⟨untouched_traceStateset h, untouched_tracePwmload h _⟩

theorem delivers_traceInit : Delivers (traceInit h)
    ([bcastItem Config.ssd1, .cmd 13, bcastItem Config.ssd2, .cmd 15] ++
      ((List.replicate 16 [bcastItem Config.pwmInit, .cmd 0]).flatten ++ [.cmd 2])) 0 :=
  (delivers_traceStateset h).append (delivers_tracePwmload h _)

theorem opcodes_traceInit : opcodes (wireDecode (traceInit h) Pins.low).items =
    [13, 15, 0, 0, 0, 0, 0, 0, 0, 0, 0, 0, 0, 0, 0, 0, 0, 0, 2] := by
  rw [(delivers_traceInit h).wireDecode_eq]
  rfl

/-- A cycle of PWMCLK is one rising edge and no item. -/
theorem delivers_tracePwmclk (n : Word) : Delivers (tracePwmclk n) [] n.toNat := by
  have hcycle : Delivers [.set .pwmclk true, .set .pwmclk false] [] 1 := by
    rintro ⟨items, bits, k, pwm, pins⟩ hpins -
    obtain rfl : pins = Pins.low := hpins
    exact ⟨k, by rw [List.append_nil]; rfl⟩
  simpa [tracePwmclk] using hcycle.times n.toNat

theorem delivers_traceDelay (n : Word) : Delivers (traceDelay n) [] 0 :=
  fun v _ _ => ⟨v.k, by rw [List.append_nil]; rfl⟩

/-- The items of one SHOW. -/
def showItems (t : Table) (c : Character) : List WireItem := [bcastItem (readTable t c), .cmd 7, .cmd 2]

theorem delivers_traceShow : Delivers (traceShow h t c) (showItems t c) 65535 :=
  (((delivers_traceOnoff h _).append (delivers_traceFrame h _)).append (delivers_tracePwmclk _)).append
    (delivers_traceDelay _)

/-- Going `m` characters on from the next one. -/
theorem repeat_nextChar_nextChar (m : Nat) : Nat.repeat nextChar m (nextChar c) = Nat.repeat nextChar (m + 1) c := by
  induction m with
  | zero => rfl
  | succ m ih => exact congrArg nextChar ih

theorem delivers_traceShows (m : Nat) : Delivers (traceShows h t c m)
    ((List.range m).flatMap fun j => showItems t (Nat.repeat nextChar j c)) (65535 * m) := by
  induction m generalizing c with
  | zero => exact fun v _ _ => ⟨v.k, by simp [traceShows, WireView.seeAll]⟩
  | succ m ih =>
    have hall := (delivers_traceShow h t c).append (ih (nextChar c))
    rw [List.range_succ_eq_map, List.flatMap_cons, List.flatMap_map, Nat.mul_succ, Nat.add_comm (65535 * m)]
    simp only [repeat_nextChar_nextChar] at hall
    exact hall

end

end Sys2Proof.Machine

namespace Sys2Proof.Proofs

open Sys2Proof.Machine

/-- Settles O36: the record calls ONOFF with the pattern it looked up, then the latch, the clock and the wait. A pattern
is any word: it is that of A in a table that holds nothing else. -/
theorem showDisplaysItsCharacter : Obligations.ShowDisplaysItsCharacter := by
  intro s hs hcnt
  have hshow := canShow_of_cntW hcnt
  have hruns := emits_show hs.legal [] hshow
  exact ⟨(hruns .chA).completes hs rfl fun _ => hshow, (hruns .chB).completes hs rfl fun _ => hshow,
    (hruns .chC).completes hs rfl fun _ => hshow, fun pat => ⟨counts_traceShow _ ⟨pat, pat, pat⟩ .chA,
      (delivers_traceShow _ ⟨pat, pat, pat⟩ .chA).wireDecode_eq⟩⟩

/-- Settles O37: the record calls STATESET and then PWMLOAD with the hardwired magnitude. -/
theorem initRunsThePowerOnSequence : Obligations.InitRunsThePowerOnSequence := by
  intro s hs
  have hdecode := (delivers_traceInit s.params.tHold).wireDecode_eq
  exact ⟨rfl, (emits_init hs.legal []).completes hs rfl (by simp [needsShow]), counts_traceInit s.params.tHold,
    untouched_traceInit _, congrArg WireResult.pwm hdecode, congrArg WireResult.pins hdecode,
    congrArg WireResult.items hdecode, opcodes_traceInit _⟩

/-- Settles O38: INIT, then a turn of the loop for each number up to the bound. -/
theorem boundedRunShowsNCharacters : Obligations.BoundedRunShowsNCharacters := by
  intro s n hs hcnt hn
  have hshow := canShow_of_cntW hcnt
  have hinit := delivers_traceInit s.params.tHold
  have hdecode := (hinit.append (delivers_traceShows s.params.tHold s.params.table .chA n.toNat)).wireDecode_eq
  refine ⟨rfl, (emits_run hs.legal [] hshow hn).completes hs rfl fun _ => hshow, ?_, ?_⟩
  · simpa only [Nat.zero_add] using (counts_traceInit _).append (counts_traceShows _ _ _ n.toNat)
  · rw [hdecode, hinit.wireDecode_eq, Nat.zero_add]
    rfl

end Sys2Proof.Proofs
end

section
/-! SUPPORT. A good CORE that is BUSY always has a next state, so it refuses only what it is given (60_exceptions.md
R150, R154), and an endless RUN never ends (42_display_program.md R118, R120). -/

namespace Sys2Proof.Machine

/-- A good record has a move: SHOW has its pattern when it reads it (10_state.md R28), and stands, as RUN does, only
where it can be expressed. -/
theorem exists_moveRecord_of_ok {p : Params} {r : Record} (hok : r.ok p = true) : ∃ m, moveRecord p r = .next m := by
  cases r
  case aShow c q pc =>
    simp only [Record.ok, Bool.and_eq_true, decide_eq_true_eq] at hok
    obtain ⟨hshow, rfl⟩ := hok
    rw [moveRecord, if_pos hshow]
    unfold moveShow
    split <;> exact ⟨_, rfl⟩
  case aRun => exact ⟨_, if_pos (run_ok_iff.mp hok).1⟩
  all_goals exact ⟨_, rfl⟩

/-- The top record of a good state has a move. -/
theorem State.Good.exists_move {s : State} {r : Record} {rest : List Record} (h : s.Good) (hk : s.stack = r :: rest) :
    ∃ m, moveRecord s.params r = .next m := by
  have hrecords := h.records
  rw [hk] at hrecords
  exact exists_moveRecord_of_ok (List.all_eq_true.mp hrecords r List.mem_cons_self)

/-- The idle CORE in HOSTED mode takes an instruction it can express as its record (10_state.md R16). -/
theorem exec_taken {i : Instr} {s : State} (hm : s.params.bootMode = .hosted) (hk : s.stack = [])
    (hshow : needsShow i = true → s.params.canShow = true) : exec i s = .next { s with stack := [created i] } := by
  rw [exec_eq, if_neg fun hn => by simp [hshow hn.1] at hn, accept_idle hm hk]

/-- `exec` refuses only SHOW and RUN, where they cannot be expressed. -/
theorem exec_eq_refused {i : Instr} {s : State} {x : Refusal} (h : exec i s = .refused x) :
    x = .countTooNarrow ∧ s.params.canShow = false := by
  rw [exec_eq] at h
  split at h
  · next hnarrow =>
    cases h
    exact ⟨rfl, hnarrow.2⟩
  · unfold State.accept at h
    split at h <;> cases h

/-- What a step that is refused met: an illegal configuration, a record that cannot step, a word that names nothing, or
an instruction that cannot be expressed. -/
theorem step_refused_cases {s : State} {x : Refusal} (h : step s = .refused x) :
    (s.params.legal = false ∧ x = .illegalConfig) ∨
    (∃ r rest, s.stack = r :: rest ∧ moveRecord s.params r = .refused x) ∨
    (s.stack = [] ∧ ∃ q u, s.nextRequest = some (q, u) ∧
      ((∃ e, decode s.params.cntW q = .error e ∧ x = .refusedWord e) ∨
        ∃ i, decode s.params.cntW q = .ok i ∧ exec i u = .refused x)) := by
  unfold step cycle at h
  split at h
  · cases h
  split at h
  swap
  · next hlegal =>
    cases h
    exact .inl ⟨by simpa using hlegal, rfl⟩
  split at h
  · next hk =>
    unfold idleCycle at h
    split at h
    · cases h
    split at h
    · cases h
    next q u hq =>
    refine .inr (.inr ⟨hk, q, u, hq, ?_⟩)
    split at h
    · next i hi => exact .inr ⟨i, hi, h⟩
    · next e he =>
      cases h
      exact .inl ⟨e, he, rfl⟩
  · next r rest hk =>
    unfold busyCycle at h
    split at h
    · cases h
    · cases h
    · next hm =>
      cases h
      exact .inr (.inl ⟨r, rest, hk, hm⟩)

theorem canShow_eq_false_iff {p : Params} : p.canShow = false ↔ p.cntW < 16 := by
  simp [Params.canShow]

/-- The configurations the spec does not admit (92_eei_decisions.md D6). -/
theorem legal_eq_false_iff {p : Params} : p.legal = false ↔
    p.cntW < 4 ∨ 16 < p.cntW ∨ (p.bootMode = .autorun ∧ p.cntW < 16) := by
  rw [← Bool.not_eq_true]
  cases hmode : p.bootMode <;> simp [Params.legal, hmode] <;> omega

end Sys2Proof.Machine

namespace Sys2Proof.Proofs

open Sys2Proof.Machine

/-- Settles O20: a good state is in a legal configuration and its records can step, so what is left is the word. -/
theorem narrowCountsAreRefused : Obligations.NarrowCountsAreRefused := by
  refine ⟨fun i s hi hcnt => ?_, fun s hreset hconfig => ?_, fun s x hs hstep => ?_⟩
  · rw [exec_eq, if_pos ⟨hi, canShow_eq_false_iff.mpr hcnt⟩]
  · simp [step, cycle, hreset, legal_eq_false_iff.mpr hconfig]
  · obtain ⟨hlegal, _⟩ | ⟨r, rest, hk, hm⟩ | ⟨hk, q, u, hq, ⟨e, he, hx⟩ | ⟨i, _, hexec⟩⟩ := step_refused_cases hstep
    · cases hlegal.symm.trans hs.legal
    · obtain ⟨m, hm'⟩ := hs.exists_move hk
      cases hm.symm.trans hm'
    · exact ⟨hk, .inr ⟨q, u, e, hq, he, hx⟩⟩
    · obtain ⟨hx, hnarrow⟩ := exec_eq_refused hexec
      obtain ⟨_, _, _, hparams⟩ := nextRequest_keeps hq
      exact ⟨hk, .inl ⟨hx, canShow_eq_false_iff.mp (hparams ▸ hnarrow)⟩⟩

/-- Settles O40: the top record has a move, and a move keeps the state good and `RUN 0` at the bottom. -/
theorem runZeroNeverEnds : Obligations.RunZeroNeverEnds := by
  constructor
  · exact fun s hs hcnt => exec_taken hs.hosted hs.idle fun _ => canShow_of_cntW hcnt
  · intro s hs hreset hend
    cases hk : s.stack with
    | nil => simp [hk, endsInRunZero] at hend
    | cons r rest =>
      obtain ⟨m, hm⟩ := hs.exists_move hk
      have hbottom := endsInRunZero_move (hk ▸ hend) hm
      refine ⟨_, step_move hreset hs.legal hk hm, hs.move hk hm, by simpa using hreset, hbottom, ?_⟩
      rw [busy_eq_true_iff, State.applyMove_stack]
      intro hnil
      simp [hnil, endsInRunZero] at hbottom

end Sys2Proof.Proofs
end

section
/-! SUPPORT. The character table is read by the lookup of SHOW alone (42_display_program.md R119). -/

namespace Sys2Proof.Machine

/-- `s` with another character table. -/
def State.withTable (s : State) (b : Table) : State := { s with params := { s.params with table := b } }

section
variable {s t : State} (b : Table)

@[simp] theorem State.withTable_bootMode : (s.withTable b).params.bootMode = s.params.bootMode := rfl
@[simp] theorem State.withTable_cntW : (s.withTable b).params.cntW = s.params.cntW := rfl
@[simp] theorem State.withTable_clearOffer : (s.withTable b).clearOffer = s.clearOffer.withTable b := rfl

theorem nextRequest_withTable :
    (s.withTable b).nextRequest = s.nextRequest.map fun (x, u) => (x, u.withTable b) := by
  simp only [State.nextRequest, State.withTable]
  split <;> rfl

/-- A record that is not a SHOW at its first step moves alike with any table. -/
theorem moveRecord_withTable {p : Params} {r : Record} (hr : ∀ c q, r ≠ .aShow c q 0) :
    moveRecord { p with table := b } r = moveRecord p r := by
  cases r
  case aShow c q pc =>
    have hmove : moveShow b c q pc = moveShow p.table c q pc := by
      unfold moveShow
      split
      · exact absurd rfl (hr c q)
      all_goals rfl
    simp only [moveRecord, hmove]
    rfl
  all_goals rfl

/-- From a state whose top record is not a SHOW at its first step, the step with another table has the same next state
but for the table. -/
theorem step_withTable (hlookup : ∀ c q rest, s.stack ≠ .aShow c q 0 :: rest) (h : step s = .next t) :
    step (s.withTable b) = .next (t.withTable b) := by
  obtain ⟨hreset, rfl⟩ | ⟨hreset, hlegal, ⟨r, rest, m, hk, hm, rfl⟩ | ⟨hk, hmode, rfl⟩ | ⟨hk, hmode, hx, hts⟩ |
    ⟨hk, hmode, x, u, hx, i, hi, hexec⟩⟩ := step_cases h
  case inl => exact if_pos hreset
  case inr.inl =>
    have hr (c : Character) (q : Option Word) : r ≠ .aShow c q 0 := fun heq => hlookup c q rest (heq ▸ hk)
    rw [step_move (s := s.withTable b) hreset hlegal hk ((moveRecord_withTable b hr).trans hm),
      applyMove_eq_after, applyMove_eq_after]
    rfl
  all_goals rw [step_idle (s := s.withTable b) hreset hlegal hk, idleCycle]
  case inr.inr.inl => simp [hmode]
  case inr.inr.inr.inl => simp [hmode, nextRequest_withTable, hx, hts]
  case inr.inr.inr.inr =>
    obtain ⟨_, hstack, _, hparams⟩ := nextRequest_keeps hx
    obtain ⟨hshow, ⟨hmode', hidle, rfl⟩ | ⟨hnot, _⟩⟩ := exec_cases hexec
    · have htaken : exec i (u.withTable b) = .next (State.withTable { u with stack := [created i] } b) :=
        exec_taken hmode' hidle hshow
      simp [hmode, nextRequest_withTable, hx, hi, htaken]
    · exact absurd ⟨hparams ▸ hmode, hstack.trans hk⟩ hnot

end

end Sys2Proof.Machine

namespace Sys2Proof.Proofs

open Sys2Proof.Machine

/-- Settles O25: neither the moves of the other records nor taking a command nor reset reads the table. -/
theorem tableReadOnlyByShow : Obligations.TableReadOnlyByShow :=
  fun _ _ b hlookup hstep => step_withTable b hlookup hstep

end Sys2Proof.Proofs
end

section
/-! SUPPORT. An instruction taken as a frame sends that frame (43_wire_commands.md R130). What `Decode` (R139) makes of
data bits sent from idle lines, with and without a frame after them (R141), and the events it does not see. -/

namespace Sys2Proof.Machine

/-- An instruction that is taken as the record of a frame completes with that frame's trace. -/
theorem State.Ready.completes_frame {s : State} {i : Instr} {k : Word} (hs : s.Ready)
    (hcreated : created i = .aFrame k 0) (hwf : i.wf s.params.cntW = true) (hshow : needsShow i = false) :
    Completes i s (traceFrame s.params.tHold k) := by
  have hruns : Emits s.params [created i] (traceFrame s.params.tHold k) [] := hcreated ▸ emits_frame hs.legal [] k
  exact hruns.completes hs hwf (by simp [hshow])

/-- From idle lines, `t` delivers the data bits `bs` to `Decode`, and leaves the lines idle. -/
def DeliversBits (t : List Event) (bs : List Level) : Prop :=
  ∀ v : WireView, v.pins = Pins.low → v.seeAll t = { v with bits := v.bits ++ bs }

theorem deliversBits_traceSer (h w : Word) : DeliversBits (traceSer h w) (wordBits w) := fun _ => seeAll_traceSer h w

theorem deliversBits_traceBcast (h w : Word) : DeliversBits (traceBcast h w) (wordBits w ++ wordBits w) :=
  fun _ hpins => bcastBits_eq w ▸ seeAll_traceBcast h w hpins

theorem wordBits_ne_nil (w : Word) : wordBits w ≠ [] := List.ne_nil_of_length_pos (by simp)

section
variable {t u : List Event} {bs cs : List Level}

theorem DeliversBits.append (ht : DeliversBits t bs) (hu : DeliversBits u cs) : DeliversBits (t ++ u) (bs ++ cs) := by
  intro v hpins
  rw [seeAll_append, ht v hpins, hu { v with bits := v.bits ++ bs } hpins]
  simp only [List.append_assoc]

/-- Bits that no frame follows are the one item at the end. -/
theorem DeliversBits.wireDecode_eq (ht : DeliversBits t bs) (hbs : bs ≠ []) :
    wireDecode t Pins.low = ⟨[.bits bs], 0, Pins.low⟩ := by
  simp only [wireDecode, ht (.start Pins.low) rfl]
  simp [WireView.start, WireView.flush, hbs]

/-- A frame makes the bits before it one item. -/
theorem DeliversBits.frame (ht : DeliversBits t bs) (hbs : bs ≠ []) (h k : Word) :
    Delivers (t ++ traceFrame h k) [.bits bs, .cmd k.toNat] 0 := by
  intro v hpins hbits
  have hframe := seeAll_traceFrame (v := { v with bits := v.bits ++ bs }) h k hpins
  refine ⟨k.toNat, ?_⟩
  rw [seeAll_append, ht v hpins, hframe]
  simp [WireView.flush, hbits, hbs]

end

/-- Writing a line the level it has leaves the pin registers as they are. -/
theorem Pins.set_get_self (q : Pins) (p : Line) : q.set p (q.get p) = q := by
  cases p <;> rfl

/-- A write that does not change its line is no edge of it (20_memory.md R50). -/
theorem see_set_get_self (v : WireView) (p : Line) : v.see (.set p (v.pins.get p)) = v := by
  simp only [WireView.see, Pins.set_get_self]
  cases p <;> cases v.pins.get _ <;> rfl

/-- An event that `Decode` does not see where it stands can be left out. -/
theorem wireDecode_insert_unseen {t u : List Event} {q : Pins} {e : Event}
    (hunseen : ((WireView.start q).seeAll t).see e = (WireView.start q).seeAll t) :
    wireDecode (t ++ e :: u) q = wireDecode (t ++ u) q := by
  have hview : (WireView.start q).seeAll (t ++ e :: u) = (WireView.start q).seeAll (t ++ u) := by
    rw [seeAll_append, seeAll_append]
    exact congrArg (WireView.seeAll · u) hunseen
  simp only [wireDecode, hview]

end Sys2Proof.Machine

namespace Sys2Proof.Proofs

open Sys2Proof.Machine

/-- Settles O39: each is taken as a frame's record, which runs off the stack. -/
theorem wireCommandsAreTheirFrames : Obligations.WireCommandsAreTheirFrames := by
  intro s hs
  have hlength (k : Word) : (traceFrame s.params.tHold k).length = 4 * k.toNat + 3 :=
    (counts_traceFrame s.params.tHold k).1
  exact ⟨hs.completes_frame (k := Config.opcStore) rfl rfl rfl, hs.completes_frame rfl rfl rfl,
    hs.completes_frame rfl rfl rfl, hs.completes_frame rfl rfl rfl, hs.completes_frame rfl rfl rfl,
    hlength _, hlength _, hlength _⟩

/-- Settles O42: the bits of SER and BCAST wait for no frame, the others deliver their items at once. -/
theorem decodeOfPrimitives : Obligations.DecodeOfPrimitives := fun h w k =>
  ⟨(deliversBits_traceSer h w).wireDecode_eq (wordBits_ne_nil w),
    (deliversBits_traceBcast h w).wireDecode_eq (List.append_ne_nil_of_left_ne_nil (wordBits_ne_nil w) _),
    (delivers_traceFrame h k).wireDecode_eq, (delivers_tracePwmclk k).wireDecode_eq,
    (delivers_traceDelay k).wireDecode_eq⟩

/-- Settles O44: the bits of the two words wait for the frame, which makes them one item. -/
theorem differentWordsAreDelivered : Obligations.DifferentWordsAreDelivered := fun h x y k =>
  have hwords := (deliversBits_traceSer h x).append (deliversBits_traceSer h y)
  (hwords.frame (List.append_ne_nil_of_left_ne_nil (wordBits_ne_nil x) _) h k).wireDecode_eq

/-- Settles O45: neither event changes the working variables of `Decode`, whose pins are those of the trace. -/
theorem decodeIgnoresWaitsAndRedundantWrites : Obligations.DecodeIgnoresWaitsAndRedundantWrites := by
  intro t u q
  refine ⟨fun n => wireDecode_insert_unseen rfl, fun p v hlevel => wireDecode_insert_unseen ?_⟩
  have hpins : ((WireView.start q).seeAll t).pins.get p = v :=
    (congrArg (Pins.get · p) (seeAll_pins (WireView.start q) t)).trans hlevel
  exact hpins ▸ see_set_get_self _ p

end Sys2Proof.Proofs
end

section
/-! SUPPORT. The step of reset, and that of the idle CORE in HOSTED mode: it takes the request it is given, refuses it, or
waits (60_exceptions.md R152, R154, R155). -/

namespace Sys2Proof.Machine

/-- Reset wins over whatever else the step would do (60_exceptions.md R152). -/
theorem step_reset {s : State} (hr : s.host.reset = true) : step s = .next s.doReset := by
  simp [step, cycle, hr]

section
variable {s u : State} {q : Request}

theorem nextRequest_of_offer (ho : s.host.offer = some q) : s.nextRequest = some (q, s.clearOffer) := by
  simp [State.nextRequest, ho]

theorem nextRequest_of_line {rest : List Request} (ho : s.host.offer = none) (hp : s.host.program = q :: rest) :
    s.nextRequest = some (q, { s with host := { s.host with program := rest } }) := by
  simp [State.nextRequest, ho, hp]

theorem nextRequest_of_nothing (ho : s.host.offer = none) (hp : s.host.program = []) : s.nextRequest = none := by
  simp [State.nextRequest, ho, hp]

theorem withdraw_of_nextRequest (hq : s.nextRequest = some (q, u)) : s.withdraw = u := by
  simp [State.withdraw, hq]

end

section
variable {s u : State} {q : Request} (hr : s.host.reset = false) (hl : s.params.legal = true)
  (hm : s.params.bootMode = .hosted) (hk : s.stack = [])
include hr hl hm hk

/-- The idle CORE runs the instruction its request decodes to (R155). -/
theorem step_of_decode_ok {i : Instr} (hq : s.nextRequest = some (q, u)) (hi : decode s.params.cntW q = .ok i) :
    step s = exec i u := by
  simp [step_idle hr hl hk, idleCycle, hm, hq, hi]

/-- The idle CORE has no step for a request that names no instruction (R154). -/
theorem step_of_decode_error {e : DecodeError} (hq : s.nextRequest = some (q, u))
    (he : decode s.params.cntW q = .error e) : step s = .refused (.refusedWord e) := by
  simp [step_idle hr hl hk, idleCycle, hm, hq, he]

/-- The idle CORE with nothing given waits (log entry 9). -/
theorem step_of_nothing_given (hq : s.nextRequest = none) : step s = .next s := by
  simp [step_idle hr hl hk, idleCycle, hm, hq]

end

/-- A table word that decodes is a request that decodes at the default CNT_W. -/
theorem exists_request_of_decodeTableWord {nbits w : Nat} {i : Instr} (h : decodeTableWord nbits w = some i) :
    ∃ q, requestOfTable nbits w = some q ∧ decode Config.cntWDefault q = .ok i := by
  unfold decodeTableWord at h
  split at h
  · cases h
  next q hq =>
  split at h <;> cases h
  next hi => exact ⟨q, hq, hi⟩

end Sys2Proof.Machine

namespace Sys2Proof.Proofs

open Sys2Proof.Machine

/-- Settles O9: the step is reset, whose fields are read off. -/
theorem resetWins : Obligations.ResetWins := fun s hr =>
  ⟨s.doReset, step_reset hr, s.doReset_pins, s.doReset_stack, s.doReset_trace, s.doReset_params, s.doReset_offer⟩

/-- Settles O12. -/
theorem takingPushesTheRecord : Obligations.TakingPushesTheRecord := fun _ _ hm hk _ hshow =>
  ⟨exec_taken hm hk hshow, State.busy_cons ..⟩

/-- Settles O13: either input makes `q` the request the CORE is given. -/
theorem stepRunsTheDecodedInstruction : Obligations.StepRunsTheDecodedInstruction := fun _ _ _ hr hl hm hk hi =>
  ⟨fun ho => step_of_decode_ok hr hl hm hk (nextRequest_of_offer ho) hi,
    fun _ ho hp => step_of_decode_ok hr hl hm hk (nextRequest_of_line ho hp) hi⟩

/-- Settles O14: the presented request is an offer to an idle CORE of a legal configuration. -/
theorem presentedWordRuns : Obligations.PresentedWordRuns := by
  intro s nbits w i hw hcnt
  obtain ⟨q, hq, hi⟩ := exists_request_of_decodeTableWord hw
  have hlegal : (s.present (some q)).params.legal = true := by simp [State.present, Params.legal, hcnt]
  have hdecode : decode s.params.cntW q = .ok i := by rwa [hcnt]
  rw [State.withFetchWord, hq]
  exact step_of_decode_ok rfl hlegal rfl rfl (nextRequest_of_offer rfl) hdecode

/-- Settles O15: either input makes `q` the request the CORE is given, and withdrawing it takes it off that input. -/
theorem refusedWordHasNoEffect : Obligations.RefusedWordHasNoEffect := by
  intro s q e hr hl hm hk he
  have refuses {u : State} (hq : s.nextRequest = some (q, u)) :
      step s = .refused (.refusedWord e) ∧ s.withdraw = u :=
    ⟨step_of_decode_error hr hl hm hk hq he, withdraw_of_nextRequest hq⟩
  exact ⟨fun ho => refuses (nextRequest_of_offer ho), fun _ ho hp => refuses (nextRequest_of_line ho hp)⟩

/-- Settles O18. -/
theorem idleCoreWaits : Obligations.IdleCoreWaits := fun _ hr hl hm hk ho hp =>
  step_of_nothing_given hr hl hm hk (nextRequest_of_nothing ho hp)

end Sys2Proof.Proofs
end

section
/-! SUPPORT. The CORE with an operation in progress hears nothing but reset (60_exceptions.md R155), and a good one
never stops (R150, 10_state.md R17). -/

namespace Sys2Proof.Machine

/-- An illegal configuration has no step, whatever else the state holds (92_eei_decisions.md D6). -/
theorem step_illegal {s : State} (hr : s.host.reset = false) (hl : s.params.legal = false) :
    step s = .refused .illegalConfig := by
  simp [step, cycle, hr, hl]

theorem exists_stack_cons_of_busy {s : State} (hb : s.busy = true) : ∃ r rest, s.stack = r :: rest :=
  List.exists_cons_of_ne_nil ((busy_eq_true_iff s).mp hb)

/-- While BUSY, the step is the same with the offer taken off the interface. -/
theorem step_clearOffer_of_busy {s : State} (hb : s.busy = true) (hr : s.host.reset = false) :
    step s.clearOffer = step s := by
  obtain ⟨r, rest, hk⟩ := exists_stack_cons_of_busy hb
  cases hl : s.params.legal with
  | false => rw [step_illegal hr hl, step_illegal (s := s.clearOffer) hr hl]
  | true =>
    rw [step_busy hr hl hk, step_busy (s := s.clearOffer) hr hl hk]
    rfl

/-- In AUTORUN mode a good state has an operation in progress: the reset program is at the bottom of its stack
(10_state.md R27). -/
theorem State.Good.busy_of_autorun {s : State} (h : s.Good) (hm : s.params.bootMode = .autorun) : s.busy = true := by
  rw [busy_eq_true_iff]
  intro hk
  have hboot := h.boot
  simp [bootOk, hm, hk, endsInRunZero] at hboot

/-- A good CORE with an operation in progress has a next state, and its host's lines wait. -/
theorem State.Good.exists_step_of_busy {s : State} (h : s.Good) (hb : s.busy = true) :
    ∃ t, step s = .next t ∧ t.host.program = s.host.program := by
  cases hr : s.host.reset with
  | true => exact ⟨_, step_reset hr, rfl⟩
  | false =>
    obtain ⟨r, rest, hk⟩ := exists_stack_cons_of_busy hb
    obtain ⟨m, hm⟩ := h.exists_move hk
    exact ⟨_, step_move hr h.legal hk hm, by simp⟩

/-- Taking an instruction raises no fault. -/
theorem exec_ne_fault (i : Instr) (s : State) (f : Fault) : exec i s ≠ .fault f := by
  rw [exec_eq, State.accept]
  split
  · simp
  · split <;> simp

/-- Only the move of the top record can raise a fault. -/
theorem exists_moveRecord_fault_of_step {s : State} {f : Fault} (h : step s = .fault f) :
    ∃ r rest, s.stack = r :: rest ∧ moveRecord s.params r = .fault f := by
  unfold step cycle at h
  split at h
  · cases h
  split at h
  swap
  · cases h
  split at h
  · unfold idleCycle at h
    split at h
    · cases h
    split at h
    · cases h
    split at h
    · exact absurd h (exec_ne_fault _ _ _)
    · cases h
  · next r rest hk =>
    unfold busyCycle at h
    split at h
    · cases h
    · next hm =>
      cases h
      exact ⟨r, rest, hk, hm⟩
    · cases h

theorem State.Good.step_ne_fault {s : State} (h : s.Good) (f : Fault) : step s ≠ .fault f := by
  intro hf
  obtain ⟨r, rest, hk, hm⟩ := exists_moveRecord_fault_of_step hf
  obtain ⟨m, hm'⟩ := h.exists_move hk
  cases hm.symm.trans hm'

/-- A good CORE that is idle in HOSTED mode, can express the display program and is given nothing that names no
instruction, has a next state. -/
theorem State.Good.exists_step_of_idle {s : State} (h : s.Good) (hk : s.stack = [])
    (hm : s.params.bootMode = .hosted) (hcnt : s.params.cntW = 16)
    (hdecodes : ∀ q u, s.nextRequest = some (q, u) → ∃ i, decode s.params.cntW q = .ok i) :
    ∃ t, step s = .next t := by
  cases hr : s.host.reset with
  | true => exact ⟨_, step_reset hr⟩
  | false =>
    cases hq : s.nextRequest with
    | none => exact ⟨s, step_of_nothing_given hr h.legal hm hk hq⟩
    | some given =>
      obtain ⟨q, u⟩ := given
      obtain ⟨i, hi⟩ := hdecodes q u hq
      obtain ⟨_, hstack, _, hparams⟩ := nextRequest_keeps hq
      rw [step_of_decode_ok hr h.legal hm hk hq hi]
      exact ⟨_, exec_taken (hparams ▸ hm) (hstack.trans hk) fun _ => canShow_of_cntW (hparams ▸ hcnt)⟩

end Sys2Proof.Machine

namespace Sys2Proof.Proofs

open Sys2Proof.Machine

/-- Settles O16: both steps are that of the state without the offer. -/
theorem notTakenWhileBusy : Obligations.NotTakenWhileBusy := by
  intro s q hb hr
  constructor
  · exact (step_clearOffer_of_busy (s := { s with host := { s.host with offer := q } }) hb hr).symm
  · intro t ht
    obtain ⟨r, rest, hk⟩ := exists_stack_cons_of_busy hb
    obtain ⟨m, _, rfl⟩ := step_of_stack_cons hr hk ht
    simp

/-- Settles O17: a good state in AUTORUN mode is BUSY, and its next state is such a state again. -/
theorem autorunIsAlwaysBusy : Obligations.AutorunIsAlwaysBusy := by
  intro s hs hm
  have hb := hs.busy_of_autorun hm
  obtain ⟨t, ht, hprogram⟩ := hs.exists_step_of_busy hb
  have hmode : t.params.bootMode = .autorun := parametersNeverChange s t ht ▸ hm
  exact ⟨hb, t, ht, (goodIsKept s t hs ht).busy_of_autorun hmode, hprogram⟩

/-- Settles O49: a good state is BUSY, which a good state in AUTORUN mode always is, or idle in HOSTED mode. -/
theorem noStepFaults : Obligations.NoStepFaults := by
  intro s hs
  have hbusy (hb : s.busy = true) : ∃ t, step s = .next t := (hs.exists_step_of_busy hb).imp fun _ => And.left
  refine ⟨hs.step_ne_fault, hbusy, fun hcnt hdecodes => ?_⟩
  cases hm : s.params.bootMode with
  | autorun => exact hbusy (hs.busy_of_autorun hm)
  | hosted =>
    cases hb : s.busy with
    | true => exact hbusy hb
    | false => exact hs.exists_step_of_idle ((busy_eq_false_iff s).mp hb) hm hcnt hdecodes

end Sys2Proof.Proofs
end

section
/-! SUPPORT. The wire rules (70_reset_and_hazards.md R178, R181, R184): what the levels of the lines are when a record
of SER, FRAME or PWMCLK writes one of them. -/

namespace Sys2Proof.Machine

open Host (Outcome)

section
variable {p : Params} {q : Pins} {m : Move} {l : Line} {v : Level}

/-- SER writes DATA while CLOCK is low, and every write of CLOCK is an edge; TE and PWMCLK are low all the while. -/
theorem writes_of_ser {shr : Word} {i : Fin (Config.wordW + 1)} {ph : Fin 5}
    (hok : (Record.aSer shr i ph).ok p = true) (hpins : (Record.aSer shr i ph).pinsOk q = true)
    (hm : moveRecord p (.aSer shr i ph) = .next m) (hset : m.event = some (.set l v)) :
    q.te = false ∧ q.pwmclk = false ∧ (l = .data ∧ q.clock = false ∨ l = .clock ∧ q.clock = !v) := by
  simp only [Record.ok, Record.pinsOk, decide_eq_true_eq] at hok hpins
  obtain ⟨hte, hpwmclk, hclock, -⟩ := hpins
  refine ⟨hte, hpwmclk, ?_⟩
  obtain rfl := Outcome.next.inj hm
  unfold moveSer at hset
  split at hset
  · split at hset <;> cases hset <;> simpa using hclock
  · next hi =>
    obtain rfl := hok.resolve_left hi
    cases hset
    simpa using hclock

/-- FRAME writes TE as an edge while CLOCK is low, and CLOCK as an edge while TE is high; DATA and PWMCLK are low all
the while. -/
theorem writes_of_frame {k : Word} {ph : Fin 6} (hpins : (Record.aFrame k ph).pinsOk q = true)
    (hm : moveRecord p (.aFrame k ph) = .next m) (hset : m.event = some (.set l v)) :
    q.data = false ∧ q.pwmclk = false ∧
      (l = .te ∧ q.te = (!v) ∧ q.clock = false ∨ l = .clock ∧ q.te = true ∧ q.clock = !v) := by
  simp only [Record.pinsOk, decide_eq_true_eq] at hpins
  obtain ⟨hdata, hpwmclk, hte, hclock⟩ := hpins
  refine ⟨hdata, hpwmclk, ?_⟩
  obtain rfl := Outcome.next.inj hm
  unfold moveFrame at hset
  split at hset <;> cases hset <;> simp_all

/-- PWMCLK writes its line as an edge while the three others are low. -/
theorem writes_of_pwm {n : Word} {ph : Fin 2} (hpins : (Record.aPwm n ph).pinsOk q = true)
    (hm : moveRecord p (.aPwm n ph) = .next m) (hset : m.event = some (.set l v)) :
    l = .pwmclk ∧ q.pwmclk = (!v) ∧ q.data = false ∧ q.clock = false ∧ q.te = false := by
  simp only [Record.pinsOk, decide_eq_true_eq] at hpins
  obtain ⟨hdata, hclock, hte, hpwmclk⟩ := hpins
  obtain rfl := Outcome.next.inj hm
  unfold movePwm at hset
  (repeat' split at hset) <;> cases hset <;> simp_all

end

/-- A step without reset that adds an event to the trace moved the top record with that event. -/
theorem exists_move_of_emitted {s t : State} {e : Event} (hreset : s.host.reset = false) (hstep : step s = .next t)
    (htrace : t.trace = s.trace ++ [e]) :
    ∃ r rest m, s.stack = r :: rest ∧ moveRecord s.params r = .next m ∧ m.event = some e := by
  cases hk : s.stack with
  | nil => simp [(step_of_stack_nil hreset hk hstep).2] at htrace
  | cons r rest =>
    obtain ⟨m, hm, rfl⟩ := step_of_stack_cons hreset hk hstep
    refine ⟨r, rest, m, rfl, hm, ?_⟩
    cases hev : m.event <;> simp [hev] at htrace
    rw [htrace]

/-- The fields and the lines of the top record of a good state. -/
theorem State.Good.top {s : State} {r : Record} {rest : List Record} (h : s.Good) (hk : s.stack = r :: rest) :
    r.ok s.params = true ∧ r.pinsOk s.pins = true := by
  obtain ⟨_, hstack, _⟩ := (good_iff s).mp h
  exact (hk ▸ hstack).top

/-- While a frame is under way no word is: SER and FRAME are both of level 0, so neither calls the other. -/
theorem State.Good.no_ser_of_frame {s : State} {k : Word} {ph : Fin 6} {rest : List Record} (h : s.Good)
    (hk : s.stack = .aFrame k ph :: rest) : ∀ r ∈ s.stack, ∀ shr i ph, r ≠ .aSer shr i ph := by
  have hlevels := (Proofs.stackIsAtMostFiveDeep s h).2
  rw [hk] at hlevels ⊢
  rintro _ hr shr i ph' rfl
  obtain heq | hbelow := List.mem_cons.mp hr
  · cases heq
  · exact absurd ((List.pairwise_cons.mp hlevels).1 _ hbelow) (Nat.lt_irrefl 0)

end Sys2Proof.Machine

namespace Sys2Proof.Proofs

open Sys2Proof.Machine

/-- Settles O52, line by line: the record that drives the line, and the levels it writes it at. -/
theorem wireRulesHold : Obligations.WireRulesHold := by
  intro s t hs hreset hstep l v htrace
  obtain ⟨r, rest, m, hk, hm, hset⟩ := exists_move_of_emitted hreset hstep htrace
  obtain ⟨hok, hpins⟩ := hs.top hk
  have hdrives := moveRecord_drives hm hset
  cases l with
  | data =>
    obtain ⟨shr, i, ph, rfl⟩ := hdrives
    obtain ⟨hte, hpwmclk, ⟨-, hclock⟩ | ⟨hne, -⟩⟩ := writes_of_ser hok hpins hm hset
    · exact ⟨hclock, hte, hpwmclk⟩
    · cases hne
  | clock =>
    obtain ⟨shr, i, ph, rfl⟩ | ⟨k, ph, rfl⟩ := hdrives
    · obtain ⟨hte, -, ⟨hne, -⟩ | ⟨-, hclock⟩⟩ := writes_of_ser hok hpins hm hset
      · cases hne
      · exact ⟨hclock, by simp [hte, hk]⟩
    · obtain ⟨-, -, ⟨hne, -⟩ | ⟨-, hte, hclock⟩⟩ := writes_of_frame hpins hm hset
      · cases hne
      · exact ⟨hclock, by simp [hte, hk]⟩
  | te =>
    obtain ⟨k, ph, rfl⟩ := hdrives
    obtain ⟨hdata, -, ⟨-, hte, hclock⟩ | ⟨hne, -⟩⟩ := writes_of_frame hpins hm hset
    · exact ⟨hte, hclock, hdata, hs.no_ser_of_frame hk⟩
    · cases hne
  | pwmclk =>
    obtain ⟨n, ph, rfl⟩ := hdrives
    exact (writes_of_pwm hpins hm hset).2

end Sys2Proof.Proofs
end

section
/-! SUPPORT. The endless turns of `RUN 0` (42_display_program.md R118, 70_reset_and_hazards.md R172), and the opcodes
its trace delivers. -/

namespace Sys2Proof.Machine

section
variable {p : Params} (hlegal : p.legal = true) (rest : List Record) (hshow : p.canShow = true)
include hlegal hshow

/-- `m` turns of an endless RUN, after the run that led to the first of them. -/
theorem Emits.endlessTurns {k : List Record} {tr : List Event} {done : Word} {c : Character}
    (hled : Emits p k tr (.aRun 0#16 done c 1 :: rest)) (m : Nat) :
    Emits p k (tr ++ traceShows p.tHold p.table c m) (.aRun 0#16 done (Nat.repeat nextChar m c) 1 :: rest) := by
  induction m generalizing tr c with
  | zero => rwa [traceShows, List.append_nil]
  | succ m ih =>
    have turn := emits_run_turn hlegal rest hshow (done := done) c fun hend => hend.1 rfl
    have hall := ih (hled.trans turn)
    rwa [repeat_nextChar_nextChar, List.append_assoc] at hall

end

/-- RUN steps only with all lines low. -/
theorem State.Good.low_of_run {s : State} {n done : Word} {c : Character} {pc : Fin 3} {rest : List Record} (h : s.Good)
    (hk : s.stack = .aRun n done c pc :: rest) : s.pins = Pins.low :=
  of_decide_eq_true (h.top hk).2

theorem opcodes_append (l l' : List WireItem) : opcodes (l ++ l') = opcodes l ++ opcodes l' := List.filterMap_append

/-- Each SHOW delivers the opcodes 7 and 2, whatever its pattern. -/
theorem opcodes_shows (t : Table) (f : Nat → Character) (m : Nat) :
    opcodes ((List.range m).flatMap fun j => showItems t (f j)) = (List.replicate m [7, 2]).flatten := by
  have hshow (j : Nat) : opcodes (showItems t (f j)) = [7, 2] := rfl
  calc opcodes ((List.range m).flatMap fun j => showItems t (f j))
      = (List.range m).flatMap fun j => opcodes (showItems t (f j)) := List.filterMap_flatMap
    _ = (List.replicate m [7, 2]).flatten := by simp [hshow, List.flatMap_def]

theorem opcodes_autorun (h : Word) (t : Table) (m : Nat) :
    opcodes (wireDecode (traceInit h ++ traceShows h t .chA m) Pins.low).items =
      [13, 15, 0, 0, 0, 0, 0, 0, 0, 0, 0, 0, 0, 0, 0, 0, 0, 0, 2] ++ (List.replicate m [7, 2]).flatten := by
  have hinit := delivers_traceInit h
  rw [(hinit.append (delivers_traceShows h t .chA m)).wireDecode_eq, opcodes_append, opcodes_shows,
    ← opcodes_traceInit h, hinit.wireDecode_eq]

end Sys2Proof.Machine

namespace Sys2Proof.Proofs

open Sys2Proof.Machine

/-- Settles O41: RUN calls INIT and then turns without end; the lines are low by the invariant. -/
theorem autorunShowsForEver : Obligations.AutorunShowsForEver := by
  intro p h hlegal hmode hreset m
  have hshow := canShow_of_legal_autorun hlegal hmode
  have hstack : (State.resetOf p h).stack = [.aRun 0#16 0#16 .chA 0] := by simp [hmode, bootStack]
  have hturns := (emits_run_init hlegal [] hshow 0#16).endlessTurns hlegal [] hshow m
  obtain ⟨n, hrun⟩ := hturns (State.resetOf p h) rfl hreset hstack
  have hlow := ((good_resetOf h hlegal).runsTo hrun).low_of_run rfl
  exact ⟨n, _, hrun, rfl, rfl, hlow, opcodes_autorun p.tHold p.table m, rfl⟩

end Sys2Proof.Proofs
end

section
/-! SUPPORT. What brings the chain into step (70_reset_and_hazards.md R171, R174, R187; log entry 28): a full
State-Setting Sequence does, and nothing else. -/

namespace Sys2Proof.Machine

/-- Thirteen pulses after SSD1 in every IC end the first half of the sequence, whatever was sent before. -/
theorem syncFrame_state1 (s : Sync) (bits : List Level) :
    s.frame (bits ++ bcastBits Config.ssd1) Config.opcState1.toNat = .half := by
  have hsuffix := List.isSuffixOf_iff_suffix.mpr (List.suffix_append bits (bcastBits Config.ssd1))
  rw [Sync.frame, if_pos ⟨rfl, hsuffix⟩]

/-- Fifteen pulses after SSD2 in every IC end the second half. -/
theorem syncFrame_state2 : Sync.half.frame (bcastBits Config.ssd2) Config.opcState2.toNat = .inStep := by
  decide

section
variable {c : Chain} {t : List Event} {q : Pins} (hlow : pinsAfter q t = Pins.low)
include hlow

theorem pinsAfter_append_pair (h w k : Word) :
    pinsAfter q (t ++ (traceBcast h w ++ traceFrame h k)) = Pins.low := by
  rw [← List.append_assoc]
  exact (sends_traceFrame h k).pinsAfter_append ((sends_traceBcast h w).pinsAfter_append hlow)

/-- The chain takes a (broadcast, frame) pair as its two items. -/
theorem chainAfter_append_pair (h w k : Word) : chainAfter c q (t ++ (traceBcast h w ++ traceFrame h k)) =
    ((chainAfter c q t).see (.bits (bcastBits w))).see (.cmd k.toNat) := by
  rw [← List.append_assoc, (sends_traceFrame h k).chainAfter_append ((sends_traceBcast h w).pinsAfter_append hlow),
    (sends_traceBcast h w).chainAfter_append hlow]

end

theorem traceStateset_eq_pairs (h : Word) : traceStateset h =
    (traceBcast h Config.ssd1 ++ traceFrame h Config.opcState1) ++
      (traceBcast h Config.ssd2 ++ traceFrame h Config.opcState2) := List.append_assoc _ _ _

/-- The item of the data bits seen since the last TE window, if there are any. -/
def bitsItem (bs : List Level) : List WireItem := if bs = [] then [] else [.bits bs]

theorem flush_items (v : WireView) : v.flush.items = v.items ++ bitsItem v.bits := by
  unfold WireView.flush bitsItem
  split <;> simp

theorem seeAll_bitsItem (c : Chain) (bs : List Level) : c.seeAll (bitsItem bs) = c.see (.bits bs) := by
  unfold bitsItem
  split
  · next hnil => simp [hnil, Chain.seeAll, Chain.see]
  · rfl

/-- The items end with the first pair of the State-Setting Sequence. -/
def EndsInFirstPair (items : List WireItem) : Prop :=
  ∃ before b, items = before ++ [.bits (b ++ wordBits Config.ssd1 ++ wordBits Config.ssd1), .cmd 13]

/-- The items hold a full State-Setting Sequence, and only frames of 0, 2 and 7 pulses after it. -/
def HoldsStateSetting (items : List WireItem) : Prop :=
  ∃ (before after : List WireItem) (b : List Level),
    items = before ++ [.bits (b ++ wordBits Config.ssd1 ++ wordBits Config.ssd1), .cmd 13,
      bcastItem Config.ssd2, .cmd 15] ++ after ∧
    ∀ k, WireItem.cmd k ∈ after → k = 0 ∨ k = 2 ∨ k = 7

/-- Frames, each with the data bits before it, that account for the step of the chain after them. -/
structure AccountsForStep (items : List WireItem) : Prop where
  bits : (Chain.atReset.seeAll items).bits = []
  half : (Chain.atReset.seeAll items).sync = .half → EndsInFirstPair items
  inStep : (Chain.atReset.seeAll items).sync = .inStep → HoldsStateSetting items

theorem accountsForStep_nil : AccountsForStep [] := ⟨rfl, nofun, nofun⟩

theorem HoldsStateSetting.append {items l : List WireItem} (h : HoldsStateSetting items)
    (hl : ∀ k, WireItem.cmd k ∈ l → k = 0 ∨ k = 2 ∨ k = 7) : HoldsStateSetting (items ++ l) := by
  obtain ⟨before, after, b, rfl, hafter⟩ := h
  refine ⟨before, after ++ l, b, List.append_assoc _ _ _, fun k hk => ?_⟩
  exact (List.mem_append.mp hk).elim (hafter k) (hl k)

theorem cmd_not_mem_bitsItem (k : Nat) (bs : List Level) : WireItem.cmd k ∉ bitsItem bs := by
  unfold bitsItem
  split <;> simp

/-- The counts after which a chain stays in step. -/
theorem eq_of_keepsStep {k : Nat} (h : keepsStep k = true) : k = 0 ∨ k = 2 ∨ k = 7 := by
  simp [keepsStep, keepsChain, Config.opcLatch, Config.opcStore, Config.opcOnoff] at h
  omega

/-- A frame with the data bits before it accounts for what it makes of the chain's step. -/
theorem AccountsForStep.frame {items : List WireItem} (h : AccountsForStep items) (bs : List Level) (k : Nat) :
    AccountsForStep (items ++ bitsItem bs ++ [.cmd k]) := by
  have hchain : Chain.atReset.seeAll (items ++ bitsItem bs ++ [.cmd k]) =
      ((Chain.atReset.seeAll items).see (.bits bs)).see (.cmd k) := by
    rw [chainSeeAll_append, chainSeeAll_append, seeAll_bitsItem]
    rfl
  have hsync : (Chain.atReset.seeAll (items ++ bitsItem bs ++ [.cmd k])).sync =
      (Chain.atReset.seeAll items).sync.frame bs k := by
    rw [hchain]
    simp [Chain.see, h.bits]
  refine ⟨by rw [hchain]; rfl, fun hhalf => ?_, fun hin => ?_⟩
  · obtain ⟨rfl, hsuffix⟩ := syncFrame_half (hsync ▸ hhalf)
    obtain ⟨b, rfl⟩ := List.isSuffixOf_iff_suffix.mp hsuffix
    exact ⟨items, b, by simp [bitsItem, wordBits_ne_nil]⟩
  · obtain ⟨rfl, hhalf, rfl⟩ | ⟨hstep, hkeeps, -⟩ := syncFrame_inStep (hsync ▸ hin)
    · obtain ⟨before, b, rfl⟩ := h.half hhalf
      exact ⟨before, [], b, by simp [bitsItem, wordBits_ne_nil, bcastItem], by simp⟩
    · rw [List.append_assoc]
      refine (h.inStep hstep).append fun k' hk' => ?_
      obtain hbits | hcmd := List.mem_append.mp hk'
      · exact absurd hbits (cmd_not_mem_bitsItem k' bs)
      · obtain rfl : k' = k := by simpa using hcmd
        exact eq_of_keepsStep hkeeps

/-- What `Decode` has read: frames that are accounted for, and after them, while TE is high, the item it opened the
window with and no bit more. -/
def WireView.Accounted (v : WireView) : Prop :=
  ∃ items bs, AccountsForStep items ∧ v.items = items ++ bitsItem bs ∧
    (v.pins.te = true → v.bits = []) ∧ (v.pins.te = false → bs = [])

theorem WireView.Accounted.congr {v v' : WireView} (h : v.Accounted) (hitems : v'.items = v.items)
    (hbits : v.pins.te = true → v'.bits = v.bits) (hte : v'.pins.te = v.pins.te) : v'.Accounted := by
  obtain ⟨items, bs, hacc, heq, hhigh, hlow⟩ := h
  refine ⟨items, bs, hacc, hitems.trans heq, fun ht => ?_, hte ▸ hlow⟩
  rw [hte] at ht
  exact (hbits ht).trans (hhigh ht)

/-- `Decode` opens and closes TE windows in turn, and data bits are read between them. -/
theorem WireView.Accounted.see {v : WireView} (h : v.Accounted) (e : Event) : (v.see e).Accounted := by
  cases e with
  | wait n => exact h
  | set l x =>
    obtain ⟨items, bits, k, pwm, data, clock, te, pwmclk⟩ := v
    cases l with
    | data => exact h.congr rfl (fun _ => rfl) rfl
    | clock =>
      cases te with
      | true => cases clock <;> cases x <;> exact h.congr rfl (fun _ => rfl) rfl
      | false => cases clock <;> cases x <;> exact h.congr rfl nofun rfl
    | te =>
      obtain ⟨done, bs, hdone, hitems, hhigh, hlow⟩ := h
      cases te <;> cases x
      case false.false => exact ⟨done, bs, hdone, hitems, hhigh, hlow⟩
      case false.true =>
        obtain rfl := hlow rfl
        obtain rfl : items = done := by simpa [bitsItem] using hitems
        refine ⟨items, bits, hdone, flush_items _, fun _ => WireView.flush_bits _, ?_⟩
        rw [see_pins]
        nofun
      case true.false =>
        have hclosed : items ++ [.cmd k] = done ++ bitsItem bs ++ [.cmd k] := congrArg (· ++ [.cmd k]) hitems
        exact ⟨_, [], hdone.frame bs k, hclosed.trans (List.append_nil _).symm, nofun, fun _ => rfl⟩
      case true.true => exact ⟨done, bs, hdone, hitems, hhigh, hlow⟩
    | pwmclk => cases pwmclk <;> cases x <;> exact h.congr rfl (fun _ => rfl) rfl

theorem WireView.Accounted.seeAll {v : WireView} (h : v.Accounted) (t : List Event) : (v.seeAll t).Accounted := by
  induction t generalizing v with
  | nil => exact h
  | cons e t ih => exact ih (h.see e)

theorem accounted_start (q : Pins) : (WireView.start q).Accounted :=
  ⟨[], [], accountsForStep_nil, rfl, fun _ => rfl, fun _ => rfl⟩

/-- The data bits at the end of a trace leave the chain's step as the frames before them made it. -/
theorem WireView.Accounted.holdsStateSetting {v : WireView} (h : v.Accounted)
    (hin : (Chain.atReset.seeAll v.flush.items).sync = .inStep) : HoldsStateSetting v.flush.items := by
  obtain ⟨done, bs, hdone, hitems, hhigh, hlow⟩ := h
  obtain ⟨bs', hflush⟩ : ∃ bs', v.flush.items = done ++ bitsItem bs' := by
    rw [flush_items, hitems]
    cases hte : v.pins.te with
    | true => exact ⟨bs, by simp [hhigh hte, bitsItem]⟩
    | false => exact ⟨v.bits, by simp [hlow hte, bitsItem]⟩
  rw [hflush, chainSeeAll_append, seeAll_bitsItem] at hin
  rw [hflush]
  exact (hdone.inStep hin).append fun k hk => absurd hk (cmd_not_mem_bitsItem k bs')

/-- Nothing is known of a chain that is out of step. -/
theorem sync_of_chainFrom {c : Chain} {t : List Event} {q : Pins} (h : chainFrom c q t ≠ none) :
    (chainAfter c q t).sync = .inStep := by
  by_contra hout
  exact h (by simp [chainFrom, content_eq_none_of_sync hout])

end Sys2Proof.Machine

namespace Sys2Proof.Proofs

open Sys2Proof.Machine

/-- Settles O54: the first pair leaves the sequence half done from any chain, the second pair ends it, and then the
broadcast fills a chain in step (O43). -/
theorem stateSettingRestoresStep : Obligations.StateSettingRestoresStep := by
  intro c t q h w hlow
  have hlow' : pinsAfter q (t ++ traceStateset h) = Pins.low := by
    rw [traceStateset_eq_pairs, ← List.append_assoc]
    exact pinsAfter_append_pair (pinsAfter_append_pair hlow h _ _) h _ _
  have hsync : (chainAfter c q (t ++ traceStateset h)).sync = .inStep := by
    rw [traceStateset_eq_pairs, ← List.append_assoc, chainAfter_append_pair (pinsAfter_append_pair hlow h _ _),
      chainAfter_append_pair hlow]
    simp only [Chain.see, syncFrame_state1]
    exact syncFrame_state2
  exact ⟨hsync, broadcastFillsTheChain c _ q h w hlow' hsync⟩

/-- Settles O55: a chain of which anything is known is in step, and what `Decode` read accounts for it. -/
theorem nothingKnownBeforeStateSetting : Obligations.NothingKnownBeforeStateSetting := fun t q hknown =>
  ((accounted_start q).seeAll t).holdsStateSetting (sync_of_chainFrom hknown)

end Sys2Proof.Proofs
end
